-- ==== Sys2Proof/Word.lean ====
section
/-! DEFINITION. The word types of the bitary CORE, the four word widths, and the plainest arithmetic of the
spec's notation (00_scope.md section 6). -/

namespace Sys2Proof

/-- An operand, a result or a status register: 64 bits (R3, R34, R40). -/
abbrev Word := BitVec 64

/-- One byte of a payload, and the status byte of a response (R40, R42). -/
abbrev Byte := BitVec 8

/-- One command word: exactly 136 bits, bit 0 the least significant (R34). -/
abbrev CommandWord := BitVec 136

/-- `WIDTHS`: the four supported word widths (R2). The type of `S.bpi`, a member of `WIDTHS` at all times (R11). -/
inductive Width where
  | w8
  | w16
  | w32
  | w64
deriving DecidableEq, Repr

/-- A width as a plain count of bits (R2, R36). -/
def Width.bits : Width → Nat
  | .w8 => 8
  | .w16 => 16
  | .w32 => 32
  | .w64 => 64

/-- `ceil(a / b)` of the spec's notation: `(a + b - 1) div b`. -/
def divCeil (a b : Nat) : Nat := (a + b - 1) / b

/-- `ones(n)` of the spec's notation: the value with the low `n` bits set, `2^n - 1`. Formed over naturals, so that
`ones 64` is exact (R50). -/
def ones (n : Nat) : Nat := 2 ^ n - 1

end Sys2Proof
end

