-- ==== Sys2Proof/Syntax.lean ====
section
/-! DEFINITION. The commands (one constructor per row of spec/opcode_table.json, R37) and the lines of the assembler
(R43, R44). -/

namespace Sys2Proof

/-- The twelve commands. A constructor carries exactly the operand fields its format reads (R35): `A` first, then `D`, each
an unsigned 64-bit integer used as it stands (R36). The type bounds every operand, so every term is well formed. -/
inductive Instr where
  /-- `INIT N, bpi`, opcode 0x01, format AD (R61). -/
  | init (a d : Word)
  /-- `GET i`, opcode 0x02, format A (R62). -/
  | get (a : Word)
  /-- `SET i`, opcode 0x03, format A (R63). -/
  | set (a : Word)
  /-- `CLR i`, opcode 0x04, format A (R64). -/
  | clr (a : Word)
  /-- `CHW new_bpi`, opcode 0x05, format A (R65). -/
  | chw (a : Word)
  /-- `RDW k`, opcode 0x06, format A (R66). -/
  | rdw (a : Word)
  /-- `WRW k, v`, opcode 0x07, format AD (R67). -/
  | wrw (a d : Word)
  /-- `TOBIN`, opcode 0x08, format Z (R68). -/
  | tobin
  /-- `STRB`, opcode 0x09, format Z (R69). -/
  | strb
  /-- `RDN`, opcode 0x0A, format Z (R70). -/
  | rdn
  /-- `RDBPI`, opcode 0x0B, format Z (R71). -/
  | rdbpi
  /-- `RDLEN`, opcode 0x0C, format Z (R72). -/
  | rdlen
deriving DecidableEq, Repr

/-- The three formats, by the operand fields a command reads (R35). -/
inductive Format where
  | z
  | a
  | ad
deriving DecidableEq, Repr

/-- A command's name in a line of assembler text (R37, R43). -/
inductive Mnemonic where
  | init | get | set | clr | chw | rdw | wrw | tobin | strb | rdn | rdbpi | rdlen
deriving DecidableEq, Repr

/-- A line of assembler source after its text is read: numbers are still plain naturals, which the checks of WellFormed.lean
bound (R43, R44). -/
inductive AsmLine where
  /-- A command of format Z. -/
  | formatZ (m : Mnemonic)
  /-- A command of format A and its operand. -/
  | formatA (m : Mnemonic) (a : Nat)
  /-- A command of format AD and its operands. -/
  | formatAD (m : Mnemonic) (a d : Nat)
  /-- `LOADW bpi, [w0, ...]`: the bit count is inferred (R44). -/
  | loadw (bpi : Nat) (words : List Nat)
  /-- `LOADWN N, bpi, [w0, ...]`: the bit count is explicit (R44). -/
  | loadwn (bitcount bpi : Nat) (words : List Nat)
deriving DecidableEq, Repr

end Sys2Proof
end

