-- ==== Sys2Proof/Machine/Operands.lean ====
section
/-! DEFINITION. The operand forms: a width operand (R36), the item width of a word (R15) and the effective address of a
bit access (R21). -/

namespace Sys2Proof.Machine

/-- The width a plain bit count names, when it is one of 8, 16, 32 and 64 (R36). -/
def widthOfNat (n : Nat) : Option Width :=
  if n = 8 then some .w8
  else if n = 16 then some .w16
  else if n = 32 then some .w32
  else if n = 64 then some .w64
  else none

/-- A width operand: the whole 64-bit value is a plain count of bits and not a code (R36). -/
def widthOperand (v : Word) : Option Width := widthOfNat v.toNat

/-- The item width `iw(k)` of word `k` in a store of `len` words of width `bpi` that holds `n` bits (R15). -/
def itemWidth (len : Nat) (bpi : Width) (n k : Nat) : Nat :=
  if k + 1 < len then bpi.bits else n - (len - 1) * bpi.bits

/-- Where a bit lies: the word that holds it, its position in that word counted from the most significant used bit, and
the item width of that word (R21, R22). -/
structure BitAddress where
  wordIndex : Nat
  position : Nat
  width : Nat
deriving DecidableEq, Repr

/-- The effective-address computation of every bit access (R21). -/
def bitAddress (len : Nat) (bpi : Width) (n i : Nat) : BitAddress :=
  { wordIndex := i / bpi.bits
    position := i % bpi.bits
    width := itemWidth len bpi n (i / bpi.bits) }

end Sys2Proof.Machine
end

