-- ==== Sys2Proof/WellFormed.lean ====
section
/-! DEFINITION. What the assembler checks before it emits command words (R43, R44). A term of `Instr` needs no check: the
types of its operands hold exactly the values a command word can carry (R36). -/

namespace Sys2Proof

/-- The format of a command (R35, R37). -/
def Mnemonic.format : Mnemonic → Format
  | .init | .wrw => .ad
  | .get | .set | .clr | .chw | .rdw => .a
  | .tobin | .strb | .rdn | .rdbpi | .rdlen => .z

/-- A number of a source line must be below `2^64` (R43). -/
def operandFits (n : Nat) : Bool := decide (n < 2 ^ 64)

/-- Every word of a load is below `2^iw(k)` (R44); `iw` is R15 for a store of `len` words that holds `n` bits. -/
def wordsFit (len : Nat) (bpi : Width) (n : Nat) : Nat → List Nat → Bool
  | _, [] => true
  | k, w :: ws => decide (w < 2 ^ Machine.itemWidth len bpi n k) && wordsFit len bpi n (k + 1) ws

/-- The checks `LOADW` and `LOADWN` share: the bit count fits an operand, the width is in `WIDTHS`, the word count is
`ceil(N / bpi)` and every word fits its item width (R44). -/
def loadFits (n bpi : Nat) (ws : List Nat) : Bool :=
  match Machine.widthOfNat bpi with
  | none => false
  | some w => operandFits n && decide (divCeil n w.bits = ws.length) && wordsFit ws.length w n 0 ws

/-- What the assembler accepts: a command with the operands of its own format, each below `2^64` (R43), or a load that
passes `loadFits` (R44). -/
def AsmLine.wellFormed : AsmLine → Bool
  | .formatZ m => decide (m.format = .z)
  | .formatA m a => decide (m.format = .a) && operandFits a
  | .formatAD m a d => decide (m.format = .ad) && operandFits a && operandFits d
  | .loadw bpi ws => loadFits (bpi * ws.length) bpi ws
  | .loadwn n bpi ws => loadFits n bpi ws

end Sys2Proof
end

