-- ==== Sys2Proof/Decode.lean ====
section
/-! DEFINITION. Decoding and encoding of command words (30_encoding.md): the decoder, total on any 136 bits and rejecting by
name; after it the encoder and the assembler's expansion, written from the same tables. -/

namespace Sys2Proof

/-- Why a command word decodes to nothing. -/
inductive DecodeError where
  /-- `OP` is 0x00 or in 0x0D .. 0xFF: the word is an illegal command (R38). -/
  | undefinedOpcode (op : Byte)
deriving DecidableEq, Repr

/-- `OP = CW[135:128]` (R34). -/
def CommandWord.op (cw : CommandWord) : Byte := cw.extractLsb' 128 8

/-- `A = CW[127:64]` (R34). -/
def CommandWord.a (cw : CommandWord) : Word := cw.extractLsb' 64 64

/-- `D = CW[63:0]` (R34). -/
def CommandWord.d (cw : CommandWord) : Word := cw.extractLsb' 0 64

/-- The opcode map: a command word is decoded by its `OP` field alone, and an operand field its format does not read is
ignored (R37, R38, R39). -/
def decode (cw : CommandWord) : Except DecodeError Instr :=
  match (CommandWord.op cw).toNat with
  | 0x01 => .ok (.init (CommandWord.a cw) (CommandWord.d cw))
  | 0x02 => .ok (.get (CommandWord.a cw))
  | 0x03 => .ok (.set (CommandWord.a cw))
  | 0x04 => .ok (.clr (CommandWord.a cw))
  | 0x05 => .ok (.chw (CommandWord.a cw))
  | 0x06 => .ok (.rdw (CommandWord.a cw))
  | 0x07 => .ok (.wrw (CommandWord.a cw) (CommandWord.d cw))
  | 0x08 => .ok .tobin
  | 0x09 => .ok .strb
  | 0x0A => .ok .rdn
  | 0x0B => .ok .rdbpi
  | 0x0C => .ok .rdlen
  | _ => .error (.undefinedOpcode (CommandWord.op cw))

/-- The command word with the three fields given, `OP` in the high bits (R34). -/
def commandWord (op : Byte) (a d : Word) : CommandWord := op ++ a ++ d

/-- The command word of a command. Every field its format does not read is zero (R37, R39). -/
def encode : Instr → CommandWord
  | .init a d => commandWord 0x01 a d
  | .get a => commandWord 0x02 a 0
  | .set a => commandWord 0x03 a 0
  | .clr a => commandWord 0x04 a 0
  | .chw a => commandWord 0x05 a 0
  | .rdw a => commandWord 0x06 a 0
  | .wrw a d => commandWord 0x07 a d
  | .tobin => commandWord 0x08 0 0
  | .strb => commandWord 0x09 0 0
  | .rdn => commandWord 0x0A 0 0
  | .rdbpi => commandWord 0x0B 0 0
  | .rdlen => commandWord 0x0C 0 0

/-- The format of a command (R35). -/
def Instr.format : Instr → Format
  | .init _ _ | .wrw _ _ => .ad
  | .get _ | .set _ | .clr _ | .chw _ | .rdw _ => .a
  | .tobin | .strb | .rdn | .rdbpi | .rdlen => .z

/-- The 136 bits that a number names under the opcode table's numbering: `CW` itself, bit 0 least significant; a row of
fewer than 136 bits leaves the bits above it zero (R34; log entry 1). -/
def tableWord (nbits w : Nat) : CommandWord := BitVec.ofNat 136 (w % 2 ^ nbits)

/-- The command the decoder reads from a word numbered as spec/opcode_table.json numbers it; none where it is illegal. -/
def decodeTableWord (nbits w : Nat) : Option Instr :=
  match decode (tableWord nbits w) with
  | .ok i => some i
  | .error _ => none

/-- The command a mnemonic and its two operand values name; values of fields the format does not read are dropped (R37). -/
def Mnemonic.toInstr (m : Mnemonic) (a d : Nat) : Instr :=
  match m with
  | .init => .init (BitVec.ofNat 64 a) (BitVec.ofNat 64 d)
  | .get => .get (BitVec.ofNat 64 a)
  | .set => .set (BitVec.ofNat 64 a)
  | .clr => .clr (BitVec.ofNat 64 a)
  | .chw => .chw (BitVec.ofNat 64 a)
  | .rdw => .rdw (BitVec.ofNat 64 a)
  | .wrw => .wrw (BitVec.ofNat 64 a) (BitVec.ofNat 64 d)
  | .tobin => .tobin
  | .strb => .strb
  | .rdn => .rdn
  | .rdbpi => .rdbpi
  | .rdlen => .rdlen

/-- `WRW k, wk` for `k`, `k + 1`, ... in that order (R44). -/
def storeWords : Nat → List Nat → List Instr
  | _, [] => []
  | k, w :: ws => .wrw (BitVec.ofNat 64 k) (BitVec.ofNat 64 w) :: storeWords (k + 1) ws

/-- The expansion of a load: `INIT n, bpi`, then one `WRW` per word (R44). -/
def expandLoad (n bpi : Nat) (ws : List Nat) : List Instr :=
  .init (BitVec.ofNat 64 n) (BitVec.ofNat 64 bpi) :: storeWords 0 ws

/-- The commands a source line stands for: itself, or the expansion of a pseudo-instruction; none where the assembler
refuses the line (R43, R44). -/
def AsmLine.expand (l : AsmLine) : Option (List Instr) :=
  if l.wellFormed then
    match l with
    | .formatZ m => some [m.toInstr 0 0]
    | .formatA m a => some [m.toInstr a 0]
    | .formatAD m a d => some [m.toInstr a d]
    | .loadw bpi ws => some (expandLoad (bpi * ws.length) bpi ws)
    | .loadwn n bpi ws => some (expandLoad n bpi ws)
  else none

end Sys2Proof
end

