-- ==== Sys2Proof/Config.lean ====
section
/-! DEFINITION. What is fixed for the machine and is no state: the implementation parameters of 00_scope.md section 4,
the one OPEN parameter `CAP_BITS`, and the free value of a result the spec leaves unstated. -/

namespace Sys2Proof

/-- `RESET_BPI`: the width after reset (R19). -/
def Config.resetBpi : Width := .w8

/-- `SEP`: the separator between the groups of `TOBIN`, one ASCII space (R68). -/
def Config.separator : Byte := 0x20

/-- The ASCII digit `0`; the digit `1` is the next code (R68). -/
def Config.asciiZero : Nat := 0x30

/-- The OPEN part of `CAP_BITS`: how many 64-bit units the store holds beyond the first. No body, so nothing can be proved
of it but its bound: a statement that mentions the capacity holds for every legal capacity (R4; log entry 5). -/
opaque Config.capacityUnits : Fin (288230376151711742 + 1)

/-- `CAP_BITS`, the storage capacity in bits: a multiple of 64 in `[64, 2^64 - 64]` (R4; DESIGN CHOICE of form, log
entry 5, safe). -/
def Config.capBits : Nat := 64 * (Config.capacityUnits.val + 1)

/-- FREE VALUE (DESIGN CHOICE, log entry 6, safe): the 64-bit result of a command whose stated result does not fit 64 bits,
as an uninterpreted function of the engine state `(words, bpi, N)`. In a legal state only `TOBIN` meets it, when its payload
has `2^64` bytes or more (R40 gives `R` 64 bits and R68 says `R = len(P)`). -/
opaque Config.oversizeResult : List Nat → Width → Nat → Word

end Sys2Proof
end

