-- ==== Sys2Proof/Machine/State.lean ====
section
/-! DEFINITION. The state of the bitary CORE: the triple `(words, bpi, N)` of the BitEngine (10_state.md), and the two sides
of its command port. -/

namespace Sys2Proof.Machine

/-- The five errors a command can end with (R74). An error is a response, never a stop of the machine (R81). -/
inductive CommandError where
  /-- A bit or word index outside its bounds: `GET`, `SET`, `CLR`, `RDW`, `WRW` (R75). -/
  | indexOutOfRange
  /-- A width that is not 8, 16, 32 or 64: `INIT`, `CHW` (R76). -/
  | invalidWidth
  /-- A word value that does not fit its item width: `WRW` (R77). -/
  | invalidValue
  /-- A store larger than `CAP_BITS`: `INIT` (R78). -/
  | capacityExceeded
  /-- An opcode outside the map: any command word (R79). -/
  | illegalCommand
deriving DecidableEq, Repr

/-- The response of one command: status `ST`, result `R`, payload `P` (R40). -/
structure Response where
  st : Byte
  r : Word
  p : List Byte
deriving DecidableEq, Repr

/-- What arrives at the port between commands: a command word from the host (R34), or reset from the host or the platform
(R86). -/
inductive PortEvent where
  | command (cw : CommandWord)
  | reset
deriving DecidableEq, Repr

/-- Plain data. `words`, `bpi` and `bitcount` are the whole architectural state `S` (R10). `port` holds what the outside has
presented and the engine has not taken, in the order of acceptance (R32; log entry 1), and `responses` what the engine has
delivered, oldest first (R40; log entry 3); they are the model's own fields. -/
structure State where
  /-- `S.words`, the WordStore: a list of naturals (R10, R14; log entry 7). -/
  words : List Nat
  /-- `S.bpi`, the declared word width (R11). -/
  bpi : Width
  /-- `S.N`, the bit count (R12). -/
  bitcount : Nat
  port : List PortEvent
  responses : List Response
deriving DecidableEq, Repr

/-- Why the model stops where the spec gives no next state. Not reachable from reset: log entry 8. -/
inductive Fault where
  /-- `MemRead` or `MemWrite` outside its requirement `k < L`, `n = iw(k)`, `v < 2^n` (00_scope.md section 6). Raised by
  `GET`, `SET`, `CLR`, `RDW`, `WRW`, only in a state that breaks R13 or R14. Safe: the model stops where the spec is silent. -/
  | storeAccess
deriving DecidableEq, Repr

/-- Why the model gives a case no meaning. -/
inductive Refusal where
  /-- The command named has no meaning in the model yet; raised by `exec` alone. Safe. -/
  | notModelled (mnemonic : String)
  /-- The WordCodec was called outside its domain (R46, R52; 93_implementation_defined.md U1: refuse). Raised by `GET`, `SET`,
  `CLR`, only in a state that breaks R13 or R14. Safe. -/
  | wordCodecDomain
  /-- The resizer was called with a word of `2^old_width` or more (R53, R59; 93_implementation_defined.md U2: refuse). Raised by
  `CHW`, `STRB`, only in a state that breaks R14. Safe. -/
  | resizerDomain
deriving DecidableEq, Repr

/-- Right after reset: `S.N = 0`, `S.words = []`, `S.bpi = 8` (R19). Nothing is at the port and nothing has been delivered
(log entries 1 and 3). -/
def State.reset : State :=
  { words := [], bpi := Config.resetBpi, bitcount := 0, port := [], responses := [] }

end Sys2Proof.Machine
end

