-- ==== Sys2Proof/Machine/Flags.lean ====
section
/-! DEFINITION. The hardware has no flags and no condition codes (R17; every command's rule says "Flags: none"). What a
command reports of itself is the status byte of its response: this file holds the status codes (R41) and the three status
registers, which are views of the state (R16). -/

namespace Sys2Proof.Machine

/-- Status `OK` (R41). -/
def statusOk : Byte := 0x00

/-- The status code of an error (R41, R74). -/
def CommandError.code : CommandError → Byte
  | .indexOutOfRange => 0x01
  | .invalidWidth => 0x02
  | .invalidValue => 0x03
  | .capacityExceeded => 0x04
  | .illegalCommand => 0x05

/-- `SR.N`: the bit count (R16). -/
def State.srN (s : State) : Nat := s.bitcount

/-- `SR.BPI`: the width as a plain number (R16). -/
def State.srBpi (s : State) : Nat := s.bpi.bits

/-- `SR.LEN`: the word count `L` (R16, R72; log entry 11). -/
def State.srLen (s : State) : Nat := s.words.length

end Sys2Proof.Machine
end

