-- ==== Sys2Proof/Machine/Resizer.lean ====
section
/-! DEFINITION. The WordArrayResizer: a pure function that repacks a word sequence at another width (41_resizer.md). It has
no value outside its domain (R59; log entry 8). -/

namespace Sys2Proof.Machine

/-- The loop that completes a partial output word with zero words of the old width, `while processed_bits < new_width`
(R55). Each turn adds at least one bit, so `new` turns are enough fuel. -/
def padFinal (old new : Nat) : Nat → Nat → Nat → Nat
  | 0, acc, _ => acc
  | fuel + 1, acc, processed =>
    if processed < new then padFinal old new fuel ((acc <<< old) ||| 0) (processed + old) else acc

/-- The widening loop over the words not yet read, with the transient accumulator and `processed_bits` (R18, R55). -/
def widenLoop (old new : Nat) : List Nat → Nat → Nat → List Nat
  | [], acc, processed => if 0 < processed then [padFinal old new new acc processed] else []
  | w :: ws, acc, processed =>
    if processed + old = new then ((acc <<< old) ||| w) :: widenLoop old new ws 0 0
    else widenLoop old new ws ((acc <<< old) ||| w) (processed + old)

/-- Widening (merge), from `old` to a larger width `new`; the accumulator and `processed_bits` both start at 0 (R55). -/
def widen (old new : Nat) (ws : List Nat) : List Nat := widenLoop old new ws 0 0

/-- Chunk `c` of a word, the most significant chunk first (R56). -/
def chunk (old new w c : Nat) : Nat := (w >>> (old - new * (c + 1))) &&& ones new

/-- Narrowing (split), from `old` to a smaller width `new`: `old div new` chunks a word (R56). -/
def narrow (old new : Nat) (ws : List Nat) : List Nat :=
  ws.flatMap fun w => (List.range (old / new)).map (chunk old new w)

/-- The domain of the resizer beyond its types: every word is below `2^old_width` (R53). -/
def resizerDomain (ws : List Nat) (old : Width) : Bool := ws.all fun w => decide (w < 2 ^ old.bits)

/-- `resize`: identity, widening or narrowing, by comparing the widths (R54). -/
def resize (ws : List Nat) (old new : Width) : Option (List Nat) :=
  if resizerDomain ws old then
    some (if new = old then ws
      else if old.bits < new.bits then widen old.bits new.bits ws
      else narrow old.bits new.bits ws)
  else none

end Sys2Proof.Machine
end

