-- ==== Sys2Proof/Machine/WordCodec.lean ====
section
/-! DEFINITION. The WordCodec: three pure functions over `(word, position, width)` (40_wordcodec.md). They have no value
outside their domain (R52; log entry 8). -/

namespace Sys2Proof.Machine

/-- The domain of the WordCodec (R46). -/
def wordCodecDomain (word position width : Nat) : Bool :=
  decide (1 ≤ width) && decide (width ≤ 64) && decide (position < width) && decide (word < 2 ^ 64)

/-- `wc_get` (R47). -/
def wcGet (word position width : Nat) : Option Nat :=
  if wordCodecDomain word position width then some ((word >>> (width - position - 1)) &&& 1) else none

/-- `wc_set` (R48). -/
def wcSet (word position width : Nat) : Option Nat :=
  if wordCodecDomain word position width then some (word ||| (1 <<< (width - position - 1))) else none

/-- `wc_clear` (R49). -/
def wcClear (word position width : Nat) : Option Nat :=
  if wordCodecDomain word position width then
    some (word &&& (ones width ^^^ (1 <<< (width - position - 1))))
  else none

end Sys2Proof.Machine
end

