-- ==== Sys2Proof/Machine/Ops.lean ====
section
/-! DEFINITION. The named operations every command is made of: `MemRead` and `MemWrite` (00_scope.md section 6), `respond`
and `raise` (R40, R81), reset (R86), what the host does at the port, and the operations several commands share. -/

namespace Sys2Proof.Machine

/-- What a step of this machine answers. -/
abbrev StepResult := Host.Outcome State Fault Refusal

/-- `iw(k)` in this state (R15). -/
def State.iw (s : State) (k : Nat) : Nat := itemWidth s.words.length s.bpi s.bitcount k

/-- The address of bit `i` in this state (R21). -/
def State.bitAddress (s : State) (i : Nat) : BitAddress :=
  Machine.bitAddress s.words.length s.bpi s.bitcount i

/-- The canonical form of the WordStore: `len(words) = ceil(N / bpi)` and every word is below `2^iw(k)` (R13, R14). -/
def Memory.wf (words : List Nat) (bpi : Width) (n : Nat) : Bool :=
  decide (words.length = divCeil n bpi.bits) &&
    (List.range words.length).all fun k =>
      decide (words.getD k 0 < 2 ^ itemWidth words.length bpi n k)

/-- The model's read of one word: what `MemRead` gives, none outside the store. -/
def State.wordAt (s : State) (k : Nat) : Option Nat := s.words[k]?

/-- `MemRead(k, n)`: the value of word `k`, for the rest of the command. -/
def memRead (s : State) (k : Nat) (rest : Nat → StepResult) : StepResult :=
  match s.wordAt k with
  | some v => rest v
  | none => .fault .storeAccess

/-- The store with word `k` replaced (`S.words[k := v]`). -/
def State.setWord (s : State) (k v : Nat) : State := { s with words := s.words.set k v }

/-- `MemWrite(k, n, v)`: word `k` becomes `v`. It requires `k < L`, `n = iw(k)` and `v < 2^n`. -/
def memWrite (s : State) (k n v : Nat) (rest : State → StepResult) : StepResult :=
  if k < s.words.length ∧ n = s.iw k ∧ v < 2 ^ n then rest (s.setWord k v) else .fault .storeAccess

/-- The engine delivers one response (R40). -/
def State.deliver (s : State) (r : Response) : State := { s with responses := s.responses ++ [r] }

/-- A result as the 64 bits of `R`. A result that does not fit has no stated value: the free value stands for it (log
entry 6). -/
def State.resultWord (s : State) (r : Nat) : Word :=
  if r < 2 ^ 64 then BitVec.ofNat 64 r else Config.oversizeResult s.words s.bpi s.bitcount

/-- `respond(R, P)`: the command ends with status `OK` (R40). -/
def respond (s : State) (r : Nat) (p : List Byte) : StepResult :=
  .next (s.deliver { st := statusOk, r := s.resultWord r, p := p })

/-- `raise E`, the taking of an exception on this hardware: the response has the error's status, `R = 0` and no payload, and
the state is exactly as it was. Nothing is saved and no mode changes, so there is nothing to return from (R81, R82). -/
def raise (s : State) (e : CommandError) : StepResult :=
  .next (s.deliver { st := e.code, r := 0, p := [] })

/-- Reset: `S` takes its reset values (R19, R86). What the host still presents and what it was given stay with the host (log
entry 4). -/
def State.takeReset (s : State) : State :=
  { s with words := State.reset.words, bpi := State.reset.bpi, bitcount := State.reset.bitcount }

/-- The host, or another host behind it, presents events at the port (R5, R32, R86). -/
def State.present (s : State) (es : List PortEvent) : State := { s with port := s.port ++ es }

/-- The engine takes the first event from the port. -/
def State.popPort (s : State) : State := { s with port := s.port.tail }

/-- `INIT` for a capacity of `cap` bits: the width check, then the capacity check, then the zero-filled store (R61). -/
def construct (cap : Nat) (a d : Word) (s : State) : StepResult :=
  match widthOperand d with
  | none => raise s .invalidWidth
  | some w =>
    if cap < divCeil a.toNat w.bits * w.bits then raise s .capacityExceeded
    else respond { s with words := List.replicate (divCeil a.toNat w.bits) 0, bpi := w, bitcount := a.toNat } 0 []

/-- The addressing `GET`, `SET` and `CLR` share: the index check, the address of the bit, the read of its word (R62, R63,
R64). -/
def withBit (i : Word) (s : State) (rest : BitAddress → Nat → StepResult) : StepResult :=
  if s.bitcount ≤ i.toNat then raise s .indexOutOfRange
  else memRead s (s.bitAddress i.toNat).wordIndex (rest (s.bitAddress i.toNat))

/-- `SET` and `CLR` for the WordCodec function `codec`: read the word, change the bit, write the word back (R63, R64). -/
def modifyBit (codec : Nat → Nat → Nat → Option Nat) (i : Word) (s : State) : StepResult :=
  withBit i s fun b v =>
    match codec v b.position b.width with
    | some v' => memWrite s b.wordIndex b.width v' fun t => respond t 0 []
    | none => .refused .wordCodecDomain

/-- The word-index check `RDW` and `WRW` share (R66, R67). -/
def withWordIndex (k : Word) (s : State) (rest : StepResult) : StepResult :=
  if s.words.length ≤ k.toNat then raise s .indexOutOfRange else rest

/-- The state after a width change that is not a no-op: every word of the new store is full, so `N = len(new_words) * new_bpi`
(R65). -/
def State.withStore (s : State) (ws : List Nat) (w : Width) : State :=
  { s with words := ws, bpi := w, bitcount := ws.length * w.bits }

/-- One binary group: `bpi` ASCII digits, the most significant first (R68). -/
def binaryGroup (bits v : Nat) : List Byte :=
  (List.range bits).map fun j => BitVec.ofNat 8 (Config.asciiZero + (v >>> (bits - 1 - j)) % 2)

/-- The payload of `TOBIN`: the groups of all words with the separator between them only (R68). -/
def binaryText (bits : Nat) (ws : List Nat) : List Byte :=
  List.intercalate [Config.separator] (ws.map (binaryGroup bits))

/-- The payload of `STRB` from the resized words, each below 256 (R69). -/
def bytesOf (ws : List Nat) : List Byte := ws.map (BitVec.ofNat 8)

/-- The status reads `RDN`, `RDBPI` and `RDLEN`: a 64-bit view of the state and nothing else (R16). -/
def readStatus (view : State → Nat) (s : State) : StepResult := respond s (view s) []

end Sys2Proof.Machine
end

