-- ==== Sys2Proof/Machine/BitCommands.lean ====
section
/-! DEFINITION. The commands `INIT`, `GET`, `SET` and `CLR` (42_bitengine_bit.md). -/

namespace Sys2Proof.Machine

/-- `INIT N, bpi` (R61), at the capacity of this machine (R4). -/
def execInit (a d : Word) (s : State) : StepResult := construct Config.capBits a d s

/-- `GET i` (R62). -/
def execGet (a : Word) (s : State) : StepResult :=
  withBit a s fun b v =>
    match wcGet v b.position b.width with
    | some bit => respond s bit []
    | none => .refused .wordCodecDomain

/-- `SET i` (R63). -/
def execSet (a : Word) (s : State) : StepResult := modifyBit wcSet a s

/-- `CLR i` (R64). -/
def execClr (a : Word) (s : State) : StepResult := modifyBit wcClear a s

end Sys2Proof.Machine
end

