-- ==== Sys2Proof/Machine/ExportCommands.lean ====
section
/-! DEFINITION. The commands `TOBIN`, `STRB`, `RDN`, `RDBPI` and `RDLEN` (44_bitengine_export_status.md). -/

namespace Sys2Proof.Machine

/-- `TOBIN` (R68): every word prints at the nominal width, the last one too. -/
def execTobin (s : State) : StepResult :=
  respond s (binaryText s.bpi.bits s.words).length (binaryText s.bpi.bits s.words)

/-- `STRB` (R69): the store resized to bytes, with the engine's own width and bit count untouched. -/
def execStrb (s : State) : StepResult :=
  match resize s.words s.bpi .w8 with
  | some ws => respond s (bytesOf ws).length (bytesOf ws)
  | none => .refused .resizerDomain

/-- `RDN` (R70). -/
def execRdn (s : State) : StepResult := readStatus State.srN s

/-- `RDBPI` (R71). -/
def execRdbpi (s : State) : StepResult := readStatus State.srBpi s

/-- `RDLEN` (R72). -/
def execRdlen (s : State) : StepResult := readStatus State.srLen s

end Sys2Proof.Machine
end

