-- ==== Sys2Proof/Machine/WordCommands.lean ====
section
/-! DEFINITION. The commands `CHW`, `RDW` and `WRW` (43_bitengine_width_word.md). -/

namespace Sys2Proof.Machine

/-- `CHW new_bpi` (R65): the width check, then the no-op test, then the resize of the whole store. -/
def execChw (a : Word) (s : State) : StepResult :=
  match widthOperand a with
  | none => raise s .invalidWidth
  | some w =>
    if w = s.bpi then respond s 0 []
    else
      match resize s.words s.bpi w with
      | some ws => respond (s.withStore ws w) 0 []
      | none => .refused .resizerDomain

/-- `RDW k` (R66). -/
def execRdw (a : Word) (s : State) : StepResult :=
  withWordIndex a s (memRead s a.toNat fun v => respond s v [])

/-- `WRW k, v` (R67): the index check comes before the value check (R80). -/
def execWrw (a d : Word) (s : State) : StepResult :=
  withWordIndex a s
    (if 2 ^ s.iw a.toNat ≤ d.toNat then raise s .invalidValue
     else memWrite s a.toNat (s.iw a.toNat) d.toNat fun t => respond t 0 [])

end Sys2Proof.Machine
end

