-- ==== Sys2Proof/Machine/Dispatch.lean ====
section
/-! DEFINITION. The meaning of every command, one arm a constructor (R37). -/

namespace Sys2Proof.Machine

def exec (i : Instr) (s : State) : Host.Outcome State Fault Refusal :=
  match i with
  | .init a d => Sys2Proof.Machine.execInit a d s
  | .get a => Sys2Proof.Machine.execGet a s
  | .set a => Sys2Proof.Machine.execSet a s
  | .clr a => Sys2Proof.Machine.execClr a s
  | .chw a => Sys2Proof.Machine.execChw a s
  | .rdw a => Sys2Proof.Machine.execRdw a s
  | .wrw a d => Sys2Proof.Machine.execWrw a d s
  | .tobin => Sys2Proof.Machine.execTobin s
  | .strb => Sys2Proof.Machine.execStrb s
  | .rdn => Sys2Proof.Machine.execRdn s
  | .rdbpi => Sys2Proof.Machine.execRdbpi s
  | .rdlen => Sys2Proof.Machine.execRdlen s

end Sys2Proof.Machine
end

