-- ==== Sys2Proof/Machine/Step.lean ====
section
/-! DEFINITION. One step of the machine: the engine takes the first event at the port and executes it to completion (R5,
R60, R86). -/

namespace Sys2Proof.Machine

/-- One step. A command word is decoded and executed; a word with an undefined opcode raises IllegalCommand (R60, R79); reset
is taken between commands only (R86; log entry 4); with nothing at the port the engine waits (log entry 2). -/
def step (s : State) : Host.Outcome State Fault Refusal :=
  match s.port with
  | [] => .next s
  | .reset :: _ => .next s.popPort.takeReset
  | .command cw :: _ =>
    match Sys2Proof.decode cw with
    | .ok i => exec i s.popPort
    | .error _ => raise s.popPort .illegalCommand

/-- The state in which the word `w`, numbered as the opcode table numbers it, is the next thing the host presents; what was
at the port stays behind it (R34; log entry 1). -/
def State.withFetchWord (s : State) (nbits w : Nat) : State :=
  { s with port := .command (Sys2Proof.tableWord nbits w) :: s.port }

end Sys2Proof.Machine
end

