-- ==== Sys2Proof/Machine/Assembler.lean ====
section
/-! DEFINITION. The assembler's reading of source text (R43, R44): one command a line, the mnemonic in capitals, the operands
separated by a comma, `;` starting a comment. Spacing, letter case of hexadecimal digits and the text form of the loads are
log entry 9. -/

namespace Sys2Proof.Machine

/-- Why a source line is refused. -/
inductive AsmError where
  /-- The first word is no mnemonic of the opcode map and no pseudo-instruction. -/
  | unknownMnemonic
  /-- The operands are not numbers, or not in the form the mnemonic takes. -/
  | badOperands
  /-- The line is read but fails the assembler's checks (WellFormed.lean). -/
  | refusedLine
deriving DecidableEq, Repr

/-- The pieces of a source line. -/
inductive Token where
  | word (cs : List Char)
  | comma
  | openBracket
  | closeBracket
deriving DecidableEq, Repr

/-- The tokens `ts` with the word read so far, if any, in front; its characters are kept in reverse. -/
def endWord (cur : List Char) (ts : List Token) : List Token :=
  if cur.isEmpty then ts else .word cur.reverse :: ts

/-- A source line cut into tokens; a `;` ends it (R43). -/
def lexLine : List Char → List Char → List Token
  | [], cur => endWord cur []
  | c :: cs, cur =>
    if c = ';' then endWord cur []
    else if c = ',' then endWord cur (.comma :: lexLine cs [])
    else if c = '[' then endWord cur (.openBracket :: lexLine cs [])
    else if c = ']' then endWord cur (.closeBracket :: lexLine cs [])
    else if c = ' ' ∨ c = '\t' then endWord cur (lexLine cs [])
    else lexLine cs (c :: cur)

/-- The value of a digit in a base of at most 16. -/
def digitValue (base : Nat) (c : Char) : Option Nat :=
  let v :=
    if '0'.toNat ≤ c.toNat ∧ c.toNat ≤ '9'.toNat then c.toNat - '0'.toNat
    else if 'A'.toNat ≤ c.toNat ∧ c.toNat ≤ 'F'.toNat then c.toNat - 'A'.toNat + 10
    else if 'a'.toNat ≤ c.toNat ∧ c.toNat ≤ 'f'.toNat then c.toNat - 'a'.toNat + 10
    else 16
  if v < base then some v else none

/-- Digits read from the most significant on. -/
def readDigits (base : Nat) : List Char → Nat → Option Nat
  | [], acc => some acc
  | c :: cs, acc =>
    match digitValue base c with
    | some v => readDigits base cs (acc * base + v)
    | none => none

/-- A number: decimal, or hexadecimal with the prefix `0x` (R43). -/
def readNumber : List Char → Option Nat
  | [] => none
  | ['0', 'x'] => none
  | '0' :: 'x' :: cs => readDigits 16 cs 0
  | cs => readDigits 10 cs 0

/-- The mnemonics of the opcode map (R37). -/
def readMnemonic (cs : List Char) : Option Mnemonic :=
  if cs = ['I', 'N', 'I', 'T'] then some .init
  else if cs = ['G', 'E', 'T'] then some .get
  else if cs = ['S', 'E', 'T'] then some .set
  else if cs = ['C', 'L', 'R'] then some .clr
  else if cs = ['C', 'H', 'W'] then some .chw
  else if cs = ['R', 'D', 'W'] then some .rdw
  else if cs = ['W', 'R', 'W'] then some .wrw
  else if cs = ['T', 'O', 'B', 'I', 'N'] then some .tobin
  else if cs = ['S', 'T', 'R', 'B'] then some .strb
  else if cs = ['R', 'D', 'N'] then some .rdn
  else if cs = ['R', 'D', 'B', 'P', 'I'] then some .rdbpi
  else if cs = ['R', 'D', 'L', 'E', 'N'] then some .rdlen
  else none

/-- The rest of a bracketed list after its first number. -/
def readListRest : List Token → Option (List Nat)
  | [.closeBracket] => some []
  | .comma :: .word cs :: ts =>
    match readNumber cs, readListRest ts with
    | some n, some ns => some (n :: ns)
    | _, _ => none
  | _ => none

/-- A bracketed list of numbers after its opening bracket; the empty list is allowed (R44). -/
def readList : List Token → Option (List Nat)
  | [.closeBracket] => some []
  | .word cs :: ts =>
    match readNumber cs, readListRest ts with
    | some n, some ns => some (n :: ns)
    | _, _ => none
  | _ => none

/-- The operands of a command, in the order `A`, `D` (R43). -/
def readCommand (m : Mnemonic) : List Token → Option AsmLine
  | [] => some (.formatZ m)
  | [.word cs] => (readNumber cs).map (.formatA m)
  | [.word cs, .comma, .word ds] =>
    match readNumber cs, readNumber ds with
    | some a, some d => some (.formatAD m a d)
    | _, _ => none
  | _ => none

/-- The operands of `LOADW bpi, [...]` (R44). -/
def readLoadw : List Token → Option AsmLine
  | .word cs :: .comma :: .openBracket :: ts =>
    match readNumber cs, readList ts with
    | some b, some ws => some (.loadw b ws)
    | _, _ => none
  | _ => none

/-- The operands of `LOADWN N, bpi, [...]` (R44). -/
def readLoadwn : List Token → Option AsmLine
  | .word cs :: .comma :: ts =>
    match readNumber cs, readLoadw ts with
    | some n, some (.loadw b ws) => some (.loadwn n b ws)
    | _, _ => none
  | _ => none

/-- A source line, none for one that holds no command (R43, R44). -/
def readLine (line : List Char) : Except AsmError (Option AsmLine) :=
  match lexLine line [] with
  | [] => .ok none
  | .word cs :: ts =>
    let read :=
      if cs = ['L', 'O', 'A', 'D', 'W'] then some (readLoadw ts)
      else if cs = ['L', 'O', 'A', 'D', 'W', 'N'] then some (readLoadwn ts)
      else (readMnemonic cs).map fun m => readCommand m ts
    match read with
    | none => .error .unknownMnemonic
    | some none => .error .badOperands
    | some (some l) => .ok (some l)
  | _ => .error .unknownMnemonic

/-- The command words a source line assembles to (R43, R44). -/
def assembleLine (line : List Char) : Except AsmError (List CommandWord) :=
  match readLine line with
  | .error e => .error e
  | .ok none => .ok []
  | .ok (some l) =>
    match l.expand with
    | some is => .ok (is.map encode)
    | none => .error .refusedLine

end Sys2Proof.Machine
end

