-- ==== Sys2Proof/Safety.lean ====
section
/-! DEFINITION. The terms claims use: the invariants of a legal state, the states a run reaches, the spec's own reading of
the store as bits, and the form of a response. -/

namespace Sys2Proof.Machine

/-- A legal state: the WordStore has its canonical form (R13, R14; R11 is the type of `bpi`) and fits the capacity (R4). -/
structure State.Inv (s : State) : Prop where
  store : Memory.wf s.words s.bpi s.bitcount = true
  capacity : s.words.length * s.bpi.bits ≤ Config.capBits

/-- A state some run reaches: from reset, the host presents events at the port and the engine steps (R5, R86). -/
inductive Reachable : State → Prop where
  | reset : Reachable State.reset
  | present {s : State} (es : List PortEvent) : Reachable s → Reachable (s.present es)
  | step {s t : State} : Reachable s → Machine.step s = .next t → Reachable t

/-- The bit at a bit address, as the spec numbers it: position `p` of a word of item width `w` is the bit of weight
`2^(w - 1 - p)` (R21, R22); none outside the bit space `0 <= i < N` (R20). -/
def State.bitAt (s : State) (i : Nat) : Option Bool :=
  if i < s.bitcount then
    (s.wordAt (i / s.bpi.bits)).map fun v =>
      v.testBit (s.iw (i / s.bpi.bits) - 1 - i % s.bpi.bits)
  else none

/-- The concatenation, most significant bit first, of every word taken at `width` bits (R58). -/
def stream (width : Nat) (ws : List Nat) : List Bool :=
  ws.flatMap fun v => (List.range width).map fun j => v.testBit (width - 1 - j)

/-- The closed form of a widening (R57): output word `j` is the sum of the `r = new div old` words from `j * r` on, the lowest
index in the most significant field, a word past the end read as 0. -/
def closedWiden (old new : Nat) (ws : List Nat) : List Nat :=
  (List.range (divCeil ws.length (new / old))).map fun j =>
    ((List.range (new / old)).map fun t =>
      ws.getD (j * (new / old) + t) 0 * 2 ^ (old * (new / old - 1 - t))).sum

/-- The closed form of a narrowing (R57): with `q = old div new`, output word `k * q + c` is the `c`-th most significant
`new`-bit field of word `k`. -/
def closedNarrow (old new : Nat) (ws : List Nat) : List Nat :=
  (List.range (ws.length * (old / new))).map fun m =>
    ws.getD (m / (old / new)) 0 / 2 ^ (new * (old / new - 1 - m % (old / new))) % 2 ^ new

/-- The response of a command that succeeds with the result `r` and no payload (R40). -/
def okResponse (r : Word) : Response := { st := 0x00, r := r, p := [] }

/-- The response of an error: its status code, `R = 0`, no payload (R41, R81). -/
def errorResponse (code : Byte) : Response := { st := code, r := 0, p := [] }

/-- The form of the response `r` of the command `i` issued in the state `s` (R40, R41): a status code of the table; an error
with `R = 0` and no payload; a payload only from a successful `TOBIN` or `STRB` with at least one word; for these two `R = len(P)`,
where 64 bits hold it (where they do not, `R` is a free value: log entry 6); and `R = 0` from the commands that return nothing. -/
structure Response.WellFormed (i : Instr) (s : State) (r : Response) : Prop where
  status : r.st.toNat ≤ 5
  error : r.st ≠ 0x00 → r.r = 0 ∧ r.p = []
  payload : r.p ≠ [] → r.st = 0x00 ∧ i ∈ [Instr.tobin, .strb] ∧ s.words ≠ []
  length : i ∈ [Instr.tobin, .strb] → r.p.length < 2 ^ 64 → r.r.toNat = r.p.length
  noResult : ∀ a d : Word, i ∈ [Instr.init a d, .set a, .clr a, .chw a, .wrw a d] → r.r = 0

/-- A load the assembler must accept (R44): the width `b` is `w`, one of `WIDTHS`; the bit count `n` is below `2^64` (R43); there
are `ceil(n / b)` words; and each is below `2^iw(k)` (R15). -/
structure LegalLoad (w : Width) (n b : Nat) (ws : List Nat) : Prop where
  width : b = w.bits
  count : n < 2 ^ 64
  length : ws.length = divCeil n b
  fits : ∀ k v : Nat, ws[k]? = some v → v < 2 ^ itemWidth ws.length w n k

/-- What a load stands for (R44): `INIT n, b`, then `WRW k, wk` for `k = 0, 1, ...` in that order. -/
def loadCommands (n b : Nat) (ws : List Nat) : List Instr :=
  .init (BitVec.ofNat 64 n) (BitVec.ofNat 64 b) ::
    (List.range ws.length).map fun k => .wrw (BitVec.ofNat 64 k) (BitVec.ofNat 64 (ws.getD k 0))

/-- The next state, where a step has one. -/
def nextState? : StepResult → Option State
  | .next s => some s
  | .fault _ => none
  | .refused _ => none

/-- The last response delivered. -/
def State.lastResponse (s : State) : Option Response := s.responses.getLast?

end Sys2Proof.Machine
end

