-- ==== Sys2Proof/Certificates/Slice0/Obligations.lean ====
section
/-! DEFINITION. The statements for the provers. Each docstring names the rules of spec/ the statement rests on. A statement
about a result ends in the equation `exec i s = .next t` for hypotheses on the state and the operands alone, and its `t` is
the whole next state, so it is the frame as well. -/

open Sys2Proof Sys2Proof.Machine

/-! ## Encoding -/

/-- R34, R37: the decoder reads from the encoding of any command that command, with every operand at every value. -/
def Obligations.DecodeOfEncodeIsTheCommand : Prop :=
  ∀ i : Instr, decode (encode i) = .ok i

/-- R34, R35, R39: encoding what a command word decodes to gives the word back, with every field its format does not read
cleared and no other bit changed. -/
def Obligations.EncodeOfDecodeClearsUnreadFields : Prop :=
  ∀ (cw : CommandWord) (i : Instr), decode cw = .ok i →
    encode i = commandWord (CommandWord.op cw)
      (if i.format = .z then 0 else CommandWord.a cw)
      (if i.format = .ad then CommandWord.d cw else 0)

/-- R39: an operand field a format does not read is ignored whatever its value, and the assembler emits zero in it. -/
def Obligations.UnreadFieldsAreIgnoredAndEmittedAsZero : Prop :=
  (∀ (cw cw' : CommandWord) (i : Instr), decode cw = .ok i →
    CommandWord.op cw' = CommandWord.op cw →
    (i.format ≠ .z → CommandWord.a cw' = CommandWord.a cw) →
    (i.format = .ad → CommandWord.d cw' = CommandWord.d cw) →
    decode cw' = .ok i) ∧
  (∀ i : Instr, (i.format = .z → CommandWord.a (encode i) = 0) ∧
    (i.format ≠ .ad → CommandWord.d (encode i) = 0))

/-- R37, R38: exactly the opcodes 0x01 to 0x0C are defined; any other is rejected by name with its opcode. -/
def Obligations.ExactlyTwelveOpcodesDecode : Prop :=
  ∀ cw : CommandWord,
    ((1 ≤ (CommandWord.op cw).toNat ∧ (CommandWord.op cw).toNat ≤ 12) → ∃ i, decode cw = .ok i) ∧
    (((CommandWord.op cw).toNat = 0 ∨ 13 ≤ (CommandWord.op cw).toNat) →
      decode cw = .error (.undefinedOpcode (CommandWord.op cw)))

/-- R34, R37, R43 and 95_test_vectors.md: words written out from the spec's listings decode to the commands they list. -/
def Obligations.ListedWordsDecodeAsListed : Prop :=
  decode 0x0100000000000000280000000000000008 = .ok (.init 40 8) ∧
  decode 0x0200000000000000070000000000000000 = .ok (.get 7) ∧
  decode 0x0500000000000000100000000000000000 = .ok (.chw 16) ∧
  decode 0x0700000000000000020000000000000003 = .ok (.wrw 2 3) ∧
  decode 0x0800000000000000000000000000000000 = .ok .tobin ∧
  decode 0x0A123456789ABCDEF00FEDCBA987654321 = .ok .rdn ∧
  decode 0x8200000000000000000000000000000000 = .error (.undefinedOpcode 0x82)

/-! ## Steps -/

/-- R5, R60: a step takes the command word in front at the port and runs the command it decodes to; taking the word from the
port is all a step adds. -/
def Obligations.StepRunsTheDecodedCommand : Prop :=
  ∀ (s : State) (cw : CommandWord) (rest : List PortEvent) (i : Instr),
    s.port = .command cw :: rest → decode cw = .ok i →
    Machine.step s = exec i { s with port := rest }

/-- R38, R79: a word with an undefined opcode raises IllegalCommand, status 0x05, and changes no state; no command of the map
ever ends with that status. -/
def Obligations.UndefinedOpcodeRaisesIllegalCommand : Prop :=
  (∀ (s : State) (cw : CommandWord) (rest : List PortEvent), s.port = .command cw :: rest →
    ((CommandWord.op cw).toNat = 0 ∨ 13 ≤ (CommandWord.op cw).toNat) →
    Machine.step s = .next (({ s with port := rest } : State).deliver (errorResponse 0x05))) ∧
  (∀ (i : Instr) (s t : State) (r : Response), exec i s = .next t →
    t.responses = s.responses ++ [r] → r.st ≠ 0x05)

/-- R86: reset, taken between commands, gives the three state elements their reset values. That it stays with the port's
later events and delivers no response is the model's choice (log entry 4). -/
def Obligations.StepTakesResetBetweenCommands : Prop :=
  ∀ (s : State) (rest : List PortEvent), s.port = .reset :: rest →
    Machine.step s =
      .next { words := [], bpi := .w8, bitcount := 0, port := rest, responses := s.responses }

/-- The model's choice (log entry 2), which no rule of the spec states: with nothing at the port the engine waits, and the state
stays as it is. -/
def Obligations.StepWaitsAtAnEmptyPort : Prop :=
  ∀ s : State, s.port = [] → Machine.step s = .next s

/-- R19, R16: the reset values of the three state elements and of the three status registers, and that `INIT 0, 8` produces
the same `(words, bpi, N)` from any state. -/
def Obligations.ResetLeavesTheEmptyArray : Prop :=
  State.reset.words = [] ∧ State.reset.bitcount = 0 ∧ State.reset.bpi = .w8 ∧
  State.reset.srN = 0 ∧ State.reset.srBpi = 8 ∧ State.reset.srLen = 0 ∧
  ∀ s : State, exec (.init 0 8) s =
    .next (({ s with
      words := State.reset.words
      bpi := State.reset.bpi
      bitcount := State.reset.bitcount } : State).deliver (okResponse 0))

/-- R87, with R61, R65, R71, R72 and R76 for the commands it does not name: on the empty array each of the twelve commands, with
every operand. `GET`, `SET`, `CLR`, `RDW` and `WRW` raise IndexOutOfRange; `TOBIN` and `STRB` have empty payloads; `RDN` and `RDLEN`
return 0 and `RDBPI` the width; `CHW` raises InvalidWidth for a bad width and else changes only `bpi`; `INIT` raises InvalidWidth,
raises CapacityExceeded or constructs, in that order. -/
def Obligations.EmptyArrayAnswersEveryCommand : Prop :=
  ∀ (s : State) (a d : Word), s.words = [] → s.bitcount = 0 →
    (∀ i ∈ [Instr.get a, .set a, .clr a, .rdw a, .wrw a d],
      exec i s = .next (s.deliver (errorResponse 0x01))) ∧
    (∀ i ∈ [Instr.tobin, .strb, .rdn, .rdlen], exec i s = .next (s.deliver (okResponse 0))) ∧
    (∃ r : Word, r.toNat = s.bpi.bits ∧ exec .rdbpi s = .next (s.deliver (okResponse r))) ∧
    ((∀ w : Width, a.toNat ≠ w.bits) →
      exec (.chw a) s = .next (s.deliver (errorResponse 0x02))) ∧
    (∀ w : Width, a.toNat = w.bits →
      exec (.chw a) s = .next (({ s with bpi := w } : State).deliver (okResponse 0))) ∧
    ((∀ w : Width, d.toNat ≠ w.bits) →
      exec (.init a d) s = .next (s.deliver (errorResponse 0x02))) ∧
    (∀ w : Width, d.toNat = w.bits →
      exec (.init a d) s = .next
        (if Config.capBits < divCeil a.toNat w.bits * w.bits then s.deliver (errorResponse 0x04)
         else ({ s with
            words := List.replicate (divCeil a.toNat w.bits) 0
            bpi := w
            bitcount := a.toNat } : State).deliver (okResponse 0)))

/-! ## Whole-machine rules -/

/-- R73: every step takes a legal state (R11 to R14, and `L * bpi <= CAP_BITS`) to a legal state. -/
def Obligations.StepKeepsLegalStates : Prop :=
  ∀ s t : State, s.Inv → Machine.step s = .next t → t.Inv

/-- R19, R73: the reset state is legal. -/
def Obligations.ResetStateIsLegal : Prop :=
  State.reset.Inv

/-- R73, R12, R52, R59: every state that some run reaches is legal, has `N <= CAP_BITS`, and its next step does not stop: no
unit is ever called outside its domain. That a step at an empty port answers at all is the model's choice (log entry 2), and that
the three stops stand for calls outside a domain is log entry 8. -/
def Obligations.ReachableStatesAreLegalAndNeverStop : Prop :=
  ∀ s : State, Reachable s →
    s.Inv ∧ s.bitcount ≤ Config.capBits ∧ ∃ t, Machine.step s = .next t

/-- R5, R40, R41, R60: in a legal state every command runs to completion and delivers exactly one response, of the form R40
gives it for that command (`Response.WellFormed`: the payload only of a successful `TOBIN` or `STRB` with at least one word, and `R`
its length); the command port is left alone. For a payload of `2^64` bytes or more, which `R` cannot count, `R` is a free value
(log entry 6), and the statement says nothing of it. -/
def Obligations.EveryCommandDeliversOneResponse : Prop :=
  ∀ (i : Instr) (s : State), s.Inv →
    ∃ (t : State) (r : Response), exec i s = .next t ∧
      t.responses = s.responses ++ [r] ∧ r.WellFormed i s ∧ t.port = s.port

/-- R26, R89: a step appends to what was delivered and changes none of it; R40: it appends one response for a command. That
it appends none for reset is DEDUCED (log entry 4), that it appends none at an empty port is the model's choice (log entry 2), and
the record of delivered responses is the model's own field (log entry 3). -/
def Obligations.DeliveredResponsesNeverChange : Prop :=
  ∀ s t : State, Machine.step s = .next t →
    ∃ new : List Response, t.responses = s.responses ++ new ∧
      new.length = (match s.port with
        | .command _ :: _ => 1
        | _ => 0)

/-- R26: the seven read commands leave the state exactly as it was, only their response being delivered, and they are
idempotent: issued again, the same command delivers the same response. -/
def Obligations.ReadCommandsChangeNothingAndRepeat : Prop :=
  ∀ (a : Word) (s t : State) (i : Instr),
    i ∈ [Instr.get a, .rdw a, .tobin, .strb, .rdn, .rdbpi, .rdlen] → exec i s = .next t →
    ∃ r : Response, t = s.deliver r ∧ exec i t = .next (t.deliver r)

/-- R81: a command word whose response has an error status leaves the state exactly as it was, and delivers `R = 0` and no
payload; only the word is gone from the port, and the engine is ready for the next. -/
def Obligations.ErrorsChangeNothing : Prop :=
  ∀ (s t : State) (cw : CommandWord) (rest : List PortEvent) (r : Response),
    s.port = .command cw :: rest → Machine.step s = .next t →
    t.responses = s.responses ++ [r] → r.st ≠ 0x00 →
    t = ({ s with port := rest } : State).deliver (errorResponse r.st)

/-- R82: the same command word issued again after an error raises the same error again. -/
def Obligations.FailedCommandFailsAgain : Prop :=
  ∀ (i : Instr) (s t : State) (r : Response), exec i s = .next t →
    t.responses = s.responses ++ [r] → r.st ≠ 0x00 → exec i t = .next (t.deliver r)

/-- R74: the status codes each command can end with. -/
def Obligations.StatusCodesOfEachCommand : Prop :=
  ∀ (i : Instr) (s t : State) (r : Response), exec i s = .next t →
    t.responses = s.responses ++ [r] →
    r.st ∈ (match i with
      | .init _ _ => [0x00, 0x02, 0x04]
      | .get _ | .set _ | .clr _ | .rdw _ => [0x00, 0x01]
      | .chw _ => [0x00, 0x02]
      | .wrw _ _ => [0x00, 0x01, 0x03]
      | .tobin | .strb | .rdn | .rdbpi | .rdlen => ([0x00] : List Byte))

/-- R11, R12: the width and the bit count are written only by `INIT` and by a `CHW` that is not a no-op. -/
def Obligations.OnlyInitAndChwWriteWidthAndCount : Prop :=
  ∀ (i : Instr) (s t : State), exec i s = .next t →
    (t.bpi ≠ s.bpi ∨ t.bitcount ≠ s.bitcount) →
    (∃ a d, i = .init a d) ∨ (∃ a, i = .chw a ∧ a.toNat ≠ s.bpi.bits)

/-- R10, R60: what a command answers, and what it makes of `(words, bpi, N)`, depends on `(words, bpi, N)` and the command
alone: two states that agree there end with the same response and agree there again. -/
def Obligations.OutcomeDependsOnTheEngineStateAlone : Prop :=
  ∀ (i : Instr) (s s' t : State), s'.words = s.words → s'.bpi = s.bpi → s'.bitcount = s.bitcount →
    exec i s = .next t →
    ∃ (t' : State) (r : Response), exec i s' = .next t' ∧
      t'.words = t.words ∧ t'.bpi = t.bpi ∧ t'.bitcount = t.bitcount ∧
      t.responses = s.responses ++ [r] ∧ t'.responses = s'.responses ++ [r]

/-! ## INIT -/

/-- R61, R80: the width check, then the capacity check, then the zero-filled store of `ceil(A / D)` words; the count of all
ones exceeds every legal capacity. -/
def Obligations.InitConstructsAZeroStore : Prop :=
  (∀ (a d : Word) (s : State), (∀ w : Width, d.toNat ≠ w.bits) →
    exec (.init a d) s = .next (s.deliver (errorResponse 0x02))) ∧
  (∀ (a d : Word) (w : Width) (s : State), d.toNat = w.bits →
    Config.capBits < divCeil a.toNat w.bits * w.bits →
    exec (.init a d) s = .next (s.deliver (errorResponse 0x04))) ∧
  (∀ (a d : Word) (w : Width) (s : State), d.toNat = w.bits →
    divCeil a.toNat w.bits * w.bits ≤ Config.capBits →
    exec (.init a d) s =
      .next (({ s with
        words := List.replicate (divCeil a.toNat w.bits) 0
        bpi := w
        bitcount := a.toNat } : State).deliver (okResponse 0))) ∧
  (∀ (d : Word) (w : Width) (s : State), d.toNat = w.bits →
    exec (.init (BitVec.allOnes 64) d) s = .next (s.deliver (errorResponse 0x04)))

/-! ## GET, SET, CLR -/

/-- R21: the effective address of a bit in range names a word of the store and a position inside that word's item width. -/
def Obligations.EffectiveAddressIsInsideTheStore : Prop :=
  ∀ (s : State) (i : Nat), s.Inv → i < s.bitcount →
    (s.bitAddress i).wordIndex = i / s.bpi.bits ∧
    (s.bitAddress i).position = i % s.bpi.bits ∧
    (s.bitAddress i).width = s.iw (i / s.bpi.bits) ∧
    (s.bitAddress i).wordIndex < s.words.length ∧
    (s.bitAddress i).position < (s.bitAddress i).width

/-- R62: `GET i` with `i` in range returns the addressed bit and writes nothing. -/
def Obligations.GetReturnsTheAddressedBit : Prop :=
  ∀ (a : Word) (s : State), s.Inv → a.toNat < s.bitcount →
    ∃ b : Bool, s.bitAt a.toNat = some b ∧
      exec (.get a) s = .next (s.deliver (okResponse (if b then 1 else 0)))

/-- R63: `SET i` with `i` in range writes one word, with value bit `w - 1 - p` set, and nothing else. -/
def Obligations.SetWritesOneWord : Prop :=
  ∀ (a : Word) (s : State), s.Inv → a.toNat < s.bitcount →
    ∃ v : Nat, s.wordAt (a.toNat / s.bpi.bits) = some v ∧
      exec (.set a) s =
        .next ((s.setWord (a.toNat / s.bpi.bits)
          (v ||| 2 ^ (s.iw (a.toNat / s.bpi.bits) - 1 - a.toNat % s.bpi.bits))).deliver
            (okResponse 0))

/-- R64: `CLR i` with `i` in range writes one word, with value bit `w - 1 - p` taken out, and nothing else. -/
def Obligations.ClrWritesOneWord : Prop :=
  ∀ (a : Word) (s : State), s.Inv → a.toNat < s.bitcount →
    ∃ v : Nat, s.wordAt (a.toNat / s.bpi.bits) = some v ∧
      exec (.clr a) s =
        .next ((s.setWord (a.toNat / s.bpi.bits)
          (if v.testBit (s.iw (a.toNat / s.bpi.bits) - 1 - a.toNat % s.bpi.bits) then
            v - 2 ^ (s.iw (a.toNat / s.bpi.bits) - 1 - a.toNat % s.bpi.bits) else v)).deliver
            (okResponse 0))

/-- R63, R64: after a `SET` or `CLR` in range the addressed bit reads 1 or 0, and every other address of the bit space reads
as before. -/
def Obligations.BitWriteChangesExactlyTheAddressedBit : Prop :=
  ∀ (a : Word) (s t : State), s.Inv → a.toNat < s.bitcount →
    (exec (.set a) s = .next t →
      ∀ j : Nat, t.bitAt j = if j = a.toNat then some true else s.bitAt j) ∧
    (exec (.clr a) s = .next t →
      ∀ j : Nat, t.bitAt j = if j = a.toNat then some false else s.bitAt j)

/-- R63, R64, and 90_conflicts.md C3: setting twice is setting once, clearing twice is clearing once, and `SET i` then `CLR i`
is `CLR i`. -/
def Obligations.SetAndClrAreIdempotent : Prop :=
  ∀ (a : Word) (s t u : State), s.Inv → a.toNat < s.bitcount →
    (exec (.set a) s = .next t → exec (.set a) t = .next u → u.words = t.words) ∧
    (exec (.clr a) s = .next t → exec (.clr a) t = .next u → u.words = t.words) ∧
    (exec (.set a) s = .next t → exec (.clr a) t = .next u →
      ∃ v : State, exec (.clr a) s = .next v ∧ u.words = v.words)

/-- R60, R63, R64, R67: in any state, `SET`, `CLR` and `WRW` change at most the word their operand addresses (computed as the
meaning computes it); the width, the bit count, the word count and the port stay, and every other word reads as before. -/
def Obligations.StoringCommandsTouchOneWord : Prop :=
  ∀ (a d : Word) (s t : State),
    (exec (.set a) s = .next t ∨ exec (.clr a) s = .next t →
      t.bpi = s.bpi ∧ t.bitcount = s.bitcount ∧ t.port = s.port ∧
      t.words.length = s.words.length ∧
      ∀ k : Nat, k ≠ (s.bitAddress a.toNat).wordIndex → t.wordAt k = s.wordAt k) ∧
    (exec (.wrw a d) s = .next t →
      t.bpi = s.bpi ∧ t.bitcount = s.bitcount ∧ t.port = s.port ∧
      t.words.length = s.words.length ∧
      ∀ k : Nat, k ≠ a.toNat → t.wordAt k = s.wordAt k)

/-- R75: in a legal state the bit commands raise IndexOutOfRange exactly for `A >= N` and the word commands exactly for
`A >= L`; the index of all ones is always out of range (R27). -/
def Obligations.IndexOutOfRangeExactlyOutsideTheSpaces : Prop :=
  ∀ (a d : Word) (s : State), s.Inv →
    (∀ i ∈ [Instr.get a, .set a, .clr a],
      exec i s = .next (s.deliver (errorResponse 0x01)) ↔ s.bitcount ≤ a.toNat) ∧
    (∀ i ∈ [Instr.rdw a, .wrw a d],
      exec i s = .next (s.deliver (errorResponse 0x01)) ↔ s.words.length ≤ a.toNat) ∧
    (s.bitcount ≤ (BitVec.allOnes 64).toNat ∧ s.words.length ≤ (BitVec.allOnes 64).toNat)

/-! ## CHW -/

/-- R76: `CHW` raises InvalidWidth for every `A` that is not one of the four widths, whatever the state (before the no-op
test), and for no other; `INIT` does so for every such `D` (before the capacity check), and for no other. -/
def Obligations.InvalidWidthExactlyForBadWidths : Prop :=
  ∀ (a d : Word) (s : State),
    (exec (.chw a) s = .next (s.deliver (errorResponse 0x02)) ↔ ∀ w : Width, a.toNat ≠ w.bits) ∧
    (exec (.init a d) s = .next (s.deliver (errorResponse 0x02)) ↔ ∀ w : Width, d.toNat ≠ w.bits)

/-- R65: `CHW bpi` is a no-op, the bit count included; another legal width repacks the whole store, sets the width, and makes
the bit count `len(new_words) * new_bpi`. -/
def Obligations.ChwRepacksTheStore : Prop :=
  ∀ (a : Word) (w : Width) (s : State), s.Inv → a.toNat = w.bits →
    (w = s.bpi → exec (.chw a) s = .next (s.deliver (okResponse 0))) ∧
    (w ≠ s.bpi → ∃ ws : List Nat,
      ws = (if s.bpi.bits < w.bits then closedWiden s.bpi.bits w.bits s.words
            else closedNarrow s.bpi.bits w.bits s.words) ∧
      exec (.chw a) s =
        .next (({ s with words := ws, bpi := w, bitcount := ws.length * w.bits } : State).deliver
          (okResponse 0)))

/-- R65 (a), (b), (c), (f): when the bit count is a multiple of the width, a width change keeps every bit at its address,
makes the bit count the next multiple of the new width, and the added bits read 0. -/
def Obligations.ChwKeepsTheBitsOfAFullStore : Prop :=
  ∀ (a : Word) (w : Width) (s t : State), s.Inv → s.bitcount % s.bpi.bits = 0 → a.toNat = w.bits →
    exec (.chw a) s = .next t →
    t.bitcount = divCeil s.bitcount w.bits * w.bits ∧
    (∀ j : Nat, j < s.bitcount → t.bitAt j = s.bitAt j) ∧
    (∀ j : Nat, s.bitcount ≤ j → j < t.bitcount → t.bitAt j = some false)

/-- R65 (d), (e): when the last word is short by `d` bits, a width change that is not a no-op keeps the bits below the last
word, moves the last word's bits up by `d` addresses, reads 0 in the gap, and leaves a full last word. -/
def Obligations.ChwMovesTheBitsOfAShortLastWord : Prop :=
  ∀ (a : Word) (w : Width) (s t : State), s.Inv → s.bitcount % s.bpi.bits ≠ 0 → a.toNat = w.bits →
    w ≠ s.bpi → exec (.chw a) s = .next t →
    (∀ j : Nat, j < s.bitcount / s.bpi.bits * s.bpi.bits → t.bitAt j = s.bitAt j) ∧
    (∀ j : Nat, s.bitcount / s.bpi.bits * s.bpi.bits ≤ j →
      j < s.bitcount / s.bpi.bits * s.bpi.bits + (s.bpi.bits - s.bitcount % s.bpi.bits) →
      t.bitAt j = some false) ∧
    (∀ j : Nat, s.bitcount / s.bpi.bits * s.bpi.bits ≤ j → j < s.bitcount →
      t.bitAt (j + (s.bpi.bits - s.bitcount % s.bpi.bits)) = s.bitAt j) ∧
    t.bitcount % w.bits = 0

/-! ## RDW, WRW -/

/-- R66: `RDW k` with `k` in range returns the word, which fits its item width, and writes nothing. -/
def Obligations.RdwReturnsTheWord : Prop :=
  ∀ (a : Word) (s : State), s.Inv → a.toNat < s.words.length →
    ∃ v : Nat, s.wordAt a.toNat = some v ∧ v < 2 ^ s.iw a.toNat ∧
      ∃ r : Word, r.toNat = v ∧ exec (.rdw a) s = .next (s.deliver (okResponse r))

/-- R67, R77, R80: in any state `WRW k, v` checks the index, then the value against the item width of that word, then writes
that word and nothing else. -/
def Obligations.WrwChecksThenWritesTheWord : Prop :=
  ∀ (a d : Word) (s : State),
    (s.words.length ≤ a.toNat →
      exec (.wrw a d) s = .next (s.deliver (errorResponse 0x01))) ∧
    (a.toNat < s.words.length → 2 ^ s.iw a.toNat ≤ d.toNat →
      exec (.wrw a d) s = .next (s.deliver (errorResponse 0x03))) ∧
    (a.toNat < s.words.length → d.toNat < 2 ^ s.iw a.toNat →
      exec (.wrw a d) s =
        .next (({ s with words := s.words.set a.toNat d.toNat } : State).deliver (okResponse 0)))

/-- R20, R22: the two address spaces are views of one storage. After a successful `WRW k, v` every bit address that lies in
word `k` reads the bit of `v` at its position, and every other bit address reads as before. -/
def Obligations.WordWriteIsSeenInTheBitSpace : Prop :=
  ∀ (a d : Word) (s t : State), s.Inv → a.toNat < s.words.length → d.toNat < 2 ^ s.iw a.toNat →
    exec (.wrw a d) s = .next t →
    ∀ j : Nat, j < s.bitcount →
      t.bitAt j =
        if j / s.bpi.bits = a.toNat then
          some (d.toNat.testBit (s.iw a.toNat - 1 - j % s.bpi.bits))
        else s.bitAt j

/-! ## TOBIN, STRB, RDN, RDBPI, RDLEN -/

/-- R68: `TOBIN` delivers `L * bpi + (L - 1)` bytes (none for an empty store): digit `j` of group `k` at index
`k * (bpi + 1) + j`, one space after every group but the last; `R` is the payload's length where 64 bits hold it (where they
do not, `R` is a free value: log entry 6). Nothing is written. -/
def Obligations.TobinDeliversTheBinaryGroups : Prop :=
  ∀ s : State, ∃ (r : Word) (p : List Byte),
    exec .tobin s = .next (s.deliver { st := 0x00, r := r, p := p }) ∧
    (p.length < 2 ^ 64 → r.toNat = p.length) ∧
    p.length = s.words.length * s.bpi.bits + (s.words.length - 1) ∧
    (∀ k v j : Nat, s.wordAt k = some v → j < s.bpi.bits →
      p[k * (s.bpi.bits + 1) + j]? =
        some (if v.testBit (s.bpi.bits - 1 - j) then (0x31 : Byte) else 0x30)) ∧
    (∀ k : Nat, k + 1 < s.words.length →
      p[k * (s.bpi.bits + 1) + s.bpi.bits]? = some (0x20 : Byte))

/-- R69: `STRB` delivers the store as bytes at the nominal width, most significant byte of each word first, `L * bpi div 8` of
them, with `R` their number, and writes nothing. -/
def Obligations.StrbDeliversTheBytes : Prop :=
  ∀ s : State, s.Inv → ∃ (r : Word) (p : List Byte),
    exec .strb s = .next (s.deliver { st := 0x00, r := r, p := p }) ∧
    r.toNat = p.length ∧ p.length = s.words.length * s.bpi.bits / 8 ∧
    (∀ k v c : Nat, s.wordAt k = some v → c < s.bpi.bits / 8 →
      ∃ b : Byte, p[k * (s.bpi.bits / 8) + c]? = some b ∧
        b.toNat = v / 2 ^ (s.bpi.bits - 8 * (c + 1)) % 256)

/-- R16, R70, R71, R72: each status read returns its 64-bit view of the state and writes nothing; `SR.LEN` is
`ceil(N / bpi)`, the exclusive upper bound of the word indices. -/
def Obligations.StatusReadsReturnTheViews : Prop :=
  ∀ s : State, s.Inv →
    (∃ r : Word, r.toNat = s.bitcount ∧ exec .rdn s = .next (s.deliver (okResponse r))) ∧
    (∃ r : Word, r.toNat = s.bpi.bits ∧ exec .rdbpi s = .next (s.deliver (okResponse r))) ∧
    (∃ r : Word, r.toNat = s.words.length ∧ r.toNat = divCeil s.bitcount s.bpi.bits ∧
      exec .rdlen s = .next (s.deliver (okResponse r)))

/-! ## WordCodec -/

/-- R46, R47, R48, R49: inside its domain the WordCodec reads, sets or clears value bit `width - 1 - position`, clearing (and
only clearing) also takes out every bit at or above `2^width`. R52 and log entry 8 (DEDUCED): outside its domain the model gives it
no value. -/
def Obligations.WordCodecActsOnOneBit : Prop :=
  ∀ word position width : Nat,
    ((1 ≤ width ∧ width ≤ 64 ∧ position < width ∧ word < 2 ^ 64) →
      wcGet word position width = some (word.testBit (width - 1 - position)).toNat ∧
      (∃ v, wcSet word position width = some v ∧
        ∀ j, v.testBit j = (word.testBit j || decide (j = width - 1 - position))) ∧
      (∃ v, wcClear word position width = some v ∧
        ∀ j, v.testBit j =
          (word.testBit j && decide (j < width) && !decide (j = width - 1 - position)))) ∧
    (¬ (1 ≤ width ∧ width ≤ 64 ∧ position < width ∧ word < 2 ^ 64) →
      wcGet word position width = none ∧ wcSet word position width = none ∧
        wcClear word position width = none)

/-- R51: the laws (a) to (f) of the WordCodec. -/
def Obligations.WordCodecLaws : Prop :=
  ∀ word p width : Nat, 1 ≤ width → width ≤ 64 → p < width → word < 2 ^ 64 →
    ((wcSet word p width).bind (wcGet · p width) = some 1 ∧
      (wcClear word p width).bind (wcGet · p width) = some 0) ∧
    (∀ q, q < width → q ≠ p →
      (wcSet word p width).bind (wcGet · q width) = wcGet word q width ∧
      (wcClear word p width).bind (wcGet · q width) = wcGet word q width) ∧
    ((wcSet word p width).bind (wcSet · p width) = wcSet word p width ∧
      (wcClear word p width).bind (wcClear · p width) = wcClear word p width) ∧
    (word < 2 ^ width →
      (wcSet word p width).bind (wcClear · p width) = wcClear word p width ∧
      (wcClear word p width = some word ↔ wcGet word p width = some 0) ∧
      (wcClear word p width).bind (wcSet · p width) = wcSet word p width ∧
      wcSet word p width =
        some (if wcGet word p width = some 0 then word + 2 ^ (width - 1 - p) else word) ∧
      wcClear word p width =
        some (if wcGet word p width = some 1 then word - 2 ^ (width - 1 - p) else word))

/-! ## WordArrayResizer -/

/-- R54, R57, R59: on its domain `resize` is the identity, the closed form of widening or that of narrowing; every output word
fits the new width and the new nominal length is the old one rounded up to the new width; outside its domain the
model gives it no value (R59, log entry 8). -/
def Obligations.ResizeIsItsClosedForm : Prop :=
  ∀ (ws : List Nat) (old new : Width),
    ((∀ v ∈ ws, v < 2 ^ old.bits) → ∃ out : List Nat, resize ws old new = some out ∧
      (new = old → out = ws) ∧
      (old.bits < new.bits → out = closedWiden old.bits new.bits ws) ∧
      (new.bits < old.bits → out = closedNarrow old.bits new.bits ws) ∧
      (∀ v ∈ out, v < 2 ^ new.bits) ∧
      out.length * new.bits = divCeil (ws.length * old.bits) new.bits * new.bits) ∧
    (¬ (∀ v ∈ ws, v < 2 ^ old.bits) → resize ws old new = none)

/-- R53, R58 (a): the output of a resize is the same bit stream, followed only by the zero bits that fill its last word. -/
def Obligations.ResizePreservesTheBitStream : Prop :=
  ∀ (ws out : List Nat) (old new : Width), resize ws old new = some out →
    stream new.bits out = stream old.bits ws ++
      List.replicate (divCeil (ws.length * old.bits) new.bits * new.bits - ws.length * old.bits) false

/-- R58 (b), (c), (d), and 90_conflicts.md C2: resizing there and back returns the words, followed by the zero words that
padding introduced: none unless the resize widens, and then `(-n) mod r` of them. -/
def Obligations.ResizeRoundTrip : Prop :=
  ∀ (ws out : List Nat) (w1 w2 : Width), resize ws w1 w2 = some out →
    resize out w2 w1 = some (ws ++ List.replicate
      (if w1.bits < w2.bits then
        divCeil ws.length (w2.bits / w1.bits) * (w2.bits / w1.bits) - ws.length else 0) 0)

/-! ## Pseudo-instructions -/

/-- R44: every legal load, with or without an explicit `N`, expands; and where the capacity allows it, running the command words
a load expands to fills the store with exactly its words; every command of the expansion succeeds, and nothing behind it at the port
is taken. -/
def Obligations.LoadExpansionFillsTheStore : Prop :=
  (∀ (w : Width) (n b : Nat) (ws : List Nat),
    (LegalLoad w n b ws → ∃ is, (AsmLine.loadwn n b ws).expand = some is) ∧
    (LegalLoad w (b * ws.length) b ws → ∃ is, (AsmLine.loadw b ws).expand = some is)) ∧
  (∀ (s : State) (n b : Nat) (ws : List Nat) (is : List Instr) (rest : List PortEvent),
    ((AsmLine.loadwn n b ws).expand = some is ∨
      ((AsmLine.loadw b ws).expand = some is ∧ n = b * ws.length)) →
    divCeil n b * b ≤ Config.capBits →
    s.port = is.map (fun i => PortEvent.command (encode i)) ++ rest →
    ∃ w : Width, w.bits = b ∧
      Host.Core.run Sys2Proof.core is.length s = .next
        { words := ws, bpi := w, bitcount := n, port := rest
          responses := s.responses ++ List.replicate is.length (okResponse 0) })

/-- R44, R43: the assembler expands every legal load to `INIT N, bpi` followed by `WRW k, wk` in index order, `N` being
`bpi * n` where it is inferred; and it refuses a load whose width is not in `WIDTHS`, whose bit count is not below `2^64`, whose word
count is not `ceil(N / bpi)`, or one of whose words does not fit its item width. That an inferred `N` must be below `2^64` too is log
entry 9. -/
def Obligations.AssemblerExpandsLegalLoadsAndRefusesOthers : Prop :=
  (∀ (w : Width) (n b : Nat) (ws : List Nat), LegalLoad w n b ws →
    (AsmLine.loadwn n b ws).expand = some (loadCommands n b ws)) ∧
  (∀ (w : Width) (b : Nat) (ws : List Nat), b = w.bits → b * ws.length < 2 ^ 64 →
    (∀ v ∈ ws, v < 2 ^ b) →
    (AsmLine.loadw b ws).expand = some (loadCommands (b * ws.length) b ws)) ∧
  (∀ (n b : Nat) (ws : List Nat),
    ((∀ w : Width, b ≠ w.bits) →
      (AsmLine.loadwn n b ws).expand = none ∧ (AsmLine.loadw b ws).expand = none) ∧
    (2 ^ 64 ≤ n → (AsmLine.loadwn n b ws).expand = none) ∧
    (2 ^ 64 ≤ b * ws.length → (AsmLine.loadw b ws).expand = none) ∧
    (divCeil n b ≠ ws.length → (AsmLine.loadwn n b ws).expand = none) ∧
    (∀ (w : Width) (k v : Nat), b = w.bits → ws[k]? = some v →
      (2 ^ itemWidth ws.length w n k ≤ v → (AsmLine.loadwn n b ws).expand = none) ∧
      (2 ^ itemWidth ws.length w (b * ws.length) k ≤ v → (AsmLine.loadw b ws).expand = none)))
end

