-- ==== Sys2Proof/Laws/State.lean ====
section
/-! SUPPORT. One lemma per field per update of State, and the small facts of the configuration: no later proof unfolds a record
update. -/

namespace Sys2Proof.Machine

section Updates
variable (s : State) (r : Response) (k v : Nat) (ws : List Nat) (w : Width) (es : List PortEvent)

@[simp] theorem deliver_words : (s.deliver r).words = s.words := rfl
@[simp] theorem deliver_bpi : (s.deliver r).bpi = s.bpi := rfl
@[simp] theorem deliver_bitcount : (s.deliver r).bitcount = s.bitcount := rfl
@[simp] theorem deliver_port : (s.deliver r).port = s.port := rfl
@[simp] theorem deliver_responses : (s.deliver r).responses = s.responses ++ [r] := rfl

@[simp] theorem setWord_words : (s.setWord k v).words = s.words.set k v := rfl
@[simp] theorem setWord_bpi : (s.setWord k v).bpi = s.bpi := rfl
@[simp] theorem setWord_bitcount : (s.setWord k v).bitcount = s.bitcount := rfl
@[simp] theorem setWord_port : (s.setWord k v).port = s.port := rfl
@[simp] theorem setWord_responses : (s.setWord k v).responses = s.responses := rfl

@[simp] theorem withStore_words : (s.withStore ws w).words = ws := rfl
@[simp] theorem withStore_bpi : (s.withStore ws w).bpi = w := rfl
@[simp] theorem withStore_bitcount : (s.withStore ws w).bitcount = ws.length * w.bits := rfl
@[simp] theorem withStore_port : (s.withStore ws w).port = s.port := rfl
@[simp] theorem withStore_responses : (s.withStore ws w).responses = s.responses := rfl

@[simp] theorem takeReset_words : s.takeReset.words = [] := rfl
@[simp] theorem takeReset_bpi : s.takeReset.bpi = .w8 := rfl
@[simp] theorem takeReset_bitcount : s.takeReset.bitcount = 0 := rfl
@[simp] theorem takeReset_port : s.takeReset.port = s.port := rfl
@[simp] theorem takeReset_responses : s.takeReset.responses = s.responses := rfl

@[simp] theorem present_words : (s.present es).words = s.words := rfl
@[simp] theorem present_bpi : (s.present es).bpi = s.bpi := rfl
@[simp] theorem present_bitcount : (s.present es).bitcount = s.bitcount := rfl
@[simp] theorem present_port : (s.present es).port = s.port ++ es := rfl
@[simp] theorem present_responses : (s.present es).responses = s.responses := rfl

@[simp] theorem popPort_words : s.popPort.words = s.words := rfl
@[simp] theorem popPort_bpi : s.popPort.bpi = s.bpi := rfl
@[simp] theorem popPort_bitcount : s.popPort.bitcount = s.bitcount := rfl
@[simp] theorem popPort_port : s.popPort.port = s.port.tail := rfl
@[simp] theorem popPort_responses : s.popPort.responses = s.responses := rfl

/-- The reads of the store that a delivery leaves alone. -/
@[simp] theorem deliver_wordAt : (s.deliver r).wordAt k = s.wordAt k := rfl
@[simp] theorem deliver_iw : (s.deliver r).iw k = s.iw k := rfl
@[simp] theorem deliver_bitAt : (s.deliver r).bitAt k = s.bitAt k := rfl
@[simp] theorem deliver_bitAddress : (s.deliver r).bitAddress k = s.bitAddress k := rfl
@[simp] theorem deliver_resultWord : (s.deliver r).resultWord k = s.resultWord k := rfl

/-- Writing a word changes no item width (R15). -/
@[simp] theorem setWord_iw (j : Nat) : (s.setWord k v).iw j = s.iw j := by
  simp [State.iw]

/-- Reading a word after a word write (R20). -/
theorem setWord_wordAt (j : Nat) :
    (s.setWord k v).wordAt j = if k = j then (if k < s.words.length then some v else none) else s.wordAt j := by
  simp only [State.wordAt, setWord_words, List.getElem?_set]

end Updates

/-- A legal state delivers a response and stays legal. -/
theorem State.Inv.deliver {s : State} (h : s.Inv) (r : Response) : (s.deliver r).Inv := ⟨h.store, h.capacity⟩

/-- What the host presents leaves a legal state legal. -/
theorem State.Inv.present {s : State} (h : s.Inv) (es : List PortEvent) : (s.present es).Inv := ⟨h.store, h.capacity⟩

/-- Taking an event from the port leaves a legal state legal. -/
theorem State.Inv.popPort {s : State} (h : s.Inv) : s.popPort.Inv := ⟨h.store, h.capacity⟩

end Sys2Proof.Machine

namespace Sys2Proof

/-- `CAP_BITS` is at least 64 (R4). -/
theorem Config.capBits_ge : 64 ≤ Config.capBits := by
  unfold Config.capBits; omega

/-- `CAP_BITS` is at most `2^64 - 64` (R4). -/
theorem Config.capBits_le : Config.capBits ≤ 2 ^ 64 - 64 := by
  have := Config.capacityUnits.isLt
  unfold Config.capBits; omega

/-- `CAP_BITS` is a multiple of 64 (R4). -/
theorem Config.capBits_dvd : 64 ∣ Config.capBits := ⟨_, rfl⟩

/-- Every width is at least 8, at most 64 and divides 64 (R2). -/
theorem Width.bits_facts (w : Width) : 8 ≤ w.bits ∧ w.bits ≤ 64 ∧ w.bits ∣ 64 := by
  cases w <;> decide

theorem Width.bits_pos (w : Width) : 0 < w.bits := by cases w <;> decide

/-- A width is named by its bit count. -/
theorem Width.bits_inj {w w' : Width} (h : w.bits = w'.bits) : w = w' := by
  cases w <;> cases w' <;> first | rfl | cases h

/-- Of two different widths the larger is an exact multiple of the smaller (R2). -/
theorem Width.bits_dvd_of_lt {w w' : Width} (h : w.bits < w'.bits) : w.bits ∣ w'.bits := by
  cases w <;> cases w' <;> revert h <;> decide

/-- `ceil(a / b)` is the least count of `b`-bit words that holds `a` bits. -/
theorem divCeil_le_iff {a b c : Nat} (hb : 0 < b) : divCeil a b ≤ c ↔ a ≤ c * b := by
  unfold divCeil
  rw [Nat.div_le_iff_le_mul_add_pred hb, Nat.mul_comm]
  omega

/-- Rounding up reaches the value. -/
theorem le_divCeil_mul {a b : Nat} (hb : 0 < b) : a ≤ divCeil a b * b := (divCeil_le_iff hb).1 le_rfl

/-- Rounding up goes past the value by less than one word. -/
theorem divCeil_mul_lt {a b : Nat} (hb : 0 < b) : divCeil a b * b < a + b := by
  have := Nat.div_mul_le_self (a + b - 1) b
  unfold divCeil; omega

@[simp] theorem divCeil_mul_self (a : Nat) {b : Nat} (hb : 0 < b) : divCeil (a * b) b = a := by
  apply le_antisymm ((divCeil_le_iff hb).2 le_rfl)
  by_contra h
  have := le_divCeil_mul (a := a * b) hb
  have := Nat.mul_le_mul_right b (show divCeil (a * b) b + 1 ≤ a by omega)
  rw [Nat.succ_mul] at this; omega

@[simp] theorem divCeil_zero {b : Nat} (hb : 0 < b) : divCeil 0 b = 0 := by
  simpa using divCeil_mul_self 0 hb

end Sys2Proof
end

