-- ==== Sys2Proof/Laws/Memory.lean ====
section
/-! SUPPORT. The canonical form of the WordStore: what it says, that reset has it, and that every operation that writes the
store keeps it. -/

namespace Sys2Proof.Machine

theorem widthOfNat_eq_some {n : Nat} {w : Width} : widthOfNat n = some w ↔ n = w.bits := by
  unfold widthOfNat
  constructor
  · intro h
    split_ifs at h with h1 h2 h3 h4 <;> cases h <;> assumption
  · rintro rfl; cases w <;> rfl

/-- A width operand is legal exactly when its 64-bit value is one of the four (R36). -/
theorem widthOperand_eq_some {v : Word} {w : Width} : widthOperand v = some w ↔ v.toNat = w.bits :=
  widthOfNat_eq_some

theorem widthOperand_eq_none {v : Word} : widthOperand v = none ↔ ∀ w : Width, v.toNat ≠ w.bits := by
  rw [Option.eq_none_iff_forall_ne_some]
  simp [widthOperand_eq_some]

/-- What `Memory.wf` says (R13, R14). -/
theorem memory_wf_iff {ws : List Nat} {bpi : Width} {n : Nat} :
    Memory.wf ws bpi n = true ↔
      ws.length = divCeil n bpi.bits ∧
        ∀ k v : Nat, ws[k]? = some v → v < 2 ^ itemWidth ws.length bpi n k := by
  unfold Memory.wf
  simp only [Bool.and_eq_true, decide_eq_true_eq, List.all_eq_true, List.mem_range]
  refine and_congr_right fun _ => ⟨fun h k v hv => ?_, fun h k hk => ?_⟩
  · obtain ⟨hk, rfl⟩ := List.getElem?_eq_some_iff.1 hv
    simpa [List.getD_eq_getElem?_getD, hk] using h k hk
  · simpa [List.getD_eq_getElem?_getD, hk] using h k ws[k] (List.getElem?_eq_getElem hk)

/-- The item width of a word of a canonical store is at least 1 and at most the width (R15). -/
theorem itemWidth_bounds {len n k : Nat} {bpi : Width} (hl : len = divCeil n bpi.bits) (hk : k < len) :
    1 ≤ itemWidth len bpi n k ∧ itemWidth len bpi n k ≤ bpi.bits := by
  have hp := bpi.bits_pos
  have h1 := le_divCeil_mul (a := n) hp
  have h2 := divCeil_mul_lt (a := n) hp
  rw [← hl] at h1 h2
  obtain ⟨m, rfl⟩ : ∃ m, len = m + 1 := ⟨len - 1, by omega⟩
  rw [Nat.succ_mul] at h1 h2
  unfold itemWidth
  split <;> simp <;> omega

/-- A word of a canonical store fits the width (R14, R53). -/
theorem wf_word_lt {ws : List Nat} {bpi : Width} {n k v : Nat} (h : Memory.wf ws bpi n = true)
    (hv : ws[k]? = some v) : v < 2 ^ bpi.bits := by
  obtain ⟨hl, hw⟩ := memory_wf_iff.1 h
  obtain ⟨hk, _⟩ := List.getElem?_eq_some_iff.1 hv
  exact (hw k v hv).trans_le (Nat.pow_le_pow_right (by omega) (itemWidth_bounds hl hk).2)

/-- A canonical store is inside the resizer's domain (R53). -/
theorem wf_resizerDomain {ws : List Nat} {bpi : Width} {n : Nat} (h : Memory.wf ws bpi n = true) :
    resizerDomain ws bpi = true := by
  simp only [resizerDomain, List.all_eq_true, decide_eq_true_eq]
  intro v hv
  obtain ⟨k, hk⟩ := List.getElem?_of_mem hv
  exact wf_word_lt h hk

/-- A store is canonical when every word is full and fits the width: what `CHW` leaves (R65). -/
theorem wf_full {ws : List Nat} {w : Width} (h : ∀ v ∈ ws, v < 2 ^ w.bits) :
    Memory.wf ws w (ws.length * w.bits) = true := by
  refine memory_wf_iff.2 ⟨(divCeil_mul_self _ w.bits_pos).symm, fun k v hv => ?_⟩
  have hi : itemWidth ws.length w (ws.length * w.bits) k = w.bits := by
    obtain ⟨hk, _⟩ := List.getElem?_eq_some_iff.1 hv
    unfold itemWidth
    split
    · rfl
    · obtain ⟨m, hm⟩ : ∃ m, ws.length = m + 1 := ⟨ws.length - 1, by omega⟩
      rw [hm, Nat.succ_mul, Nat.add_sub_cancel, Nat.add_sub_cancel_left]
  rw [hi]
  exact h v (List.mem_of_getElem? hv)

/-- The zero-filled store `INIT` leaves is canonical (R61). -/
theorem wf_zeros (n : Nat) (w : Width) :
    Memory.wf (List.replicate (divCeil n w.bits) 0) w n = true := by
  refine memory_wf_iff.2 ⟨List.length_replicate, fun k v hv => ?_⟩
  rw [List.eq_of_mem_replicate (List.mem_of_getElem? hv)]
  exact Nat.two_pow_pos _

/-- A word write inside `MemWrite`'s requirement keeps the store canonical. -/
theorem wf_set {ws : List Nat} {bpi : Width} {n k v : Nat} (h : Memory.wf ws bpi n = true)
    (hv : v < 2 ^ itemWidth ws.length bpi n k) : Memory.wf (ws.set k v) bpi n = true := by
  obtain ⟨hl, hw⟩ := memory_wf_iff.1 h
  refine memory_wf_iff.2 ⟨by simpa using hl, fun j u hu => ?_⟩
  rw [List.length_set]
  rw [List.getElem?_set] at hu
  split_ifs at hu with hjk hk
  · cases hu; cases hjk; exact hv
  · exact hw j u hu

/-- The reset store is canonical (R19). -/
theorem wf_reset_store : Memory.wf State.reset.words State.reset.bpi State.reset.bitcount = true := by decide

/-- In a legal state a word index below `L` holds a word, and that word fits its item width (R14). -/
theorem State.Inv.wordAt {s : State} (h : s.Inv) {k : Nat} (hk : k < s.words.length) :
    ∃ v, s.wordAt k = some v ∧ v < 2 ^ s.iw k :=
  ⟨s.words[k], List.getElem?_eq_getElem hk,
    (memory_wf_iff.1 h.store).2 k _ (List.getElem?_eq_getElem hk)⟩

/-- In a legal state the word of a bit in range is in the store, and its position is below its item width (R21). -/
theorem State.Inv.address {s : State} (h : s.Inv) {i : Nat} (hi : i < s.bitcount) :
    i / s.bpi.bits < s.words.length ∧ i % s.bpi.bits < s.iw (i / s.bpi.bits) := by
  have hp := s.bpi.bits_pos
  have hl := (memory_wf_iff.1 h.store).1
  have hcap := le_divCeil_mul (a := s.bitcount) hp
  rw [← hl] at hcap
  have hk : i / s.bpi.bits < s.words.length := (Nat.div_lt_iff_lt_mul hp).2 (by omega)
  refine ⟨hk, ?_⟩
  have hm := Nat.mod_lt i hp
  have hd := Nat.div_add_mod i s.bpi.bits
  rw [Nat.mul_comm] at hd
  unfold State.iw itemWidth
  split
  · exact hm
  · rename_i hlast
    rw [show s.words.length - 1 = i / s.bpi.bits from Nat.sub_eq_of_eq_add (by omega)]
    omega

/-- The item width of a word of a legal state (R15, R46). -/
theorem State.Inv.iw_bounds {s : State} (h : s.Inv) {k : Nat} (hk : k < s.words.length) :
    1 ≤ s.iw k ∧ s.iw k ≤ 64 := by
  have := itemWidth_bounds (memory_wf_iff.1 h.store).1 hk
  exact ⟨this.1, this.2.trans s.bpi.bits_facts.2.1⟩

end Sys2Proof.Machine
end

