-- ==== Sys2Proof/Laws/Assembler.lean ====
section
/-! SUPPORT. What the assembler's checks say, and the commands a load expands to (R44). -/

namespace Sys2Proof

open Machine

/-- Every word of a load fits its item width, counted from index `k` on. -/
theorem wordsFit_iff {len n : Nat} {bpi : Width} {ws : List Nat} {k : Nat} :
    wordsFit len bpi n k ws = true ↔
      ∀ j v : Nat, ws[j]? = some v → v < 2 ^ itemWidth len bpi n (k + j) := by
  induction ws generalizing k with
  | nil => simp [wordsFit]
  | cons w ws ih =>
    simp only [wordsFit, Bool.and_eq_true, decide_eq_true_eq, ih]
    refine ⟨fun ⟨h0, hs⟩ j v hv => ?_, fun h => ⟨h 0 w rfl, fun j v hv => ?_⟩⟩
    · cases j with
      | zero => cases hv; exact h0
      | succ j =>
        rw [show k + (j + 1) = k + 1 + j by omega]
        exact hs j v hv
    · rw [show k + 1 + j = k + (j + 1) by omega]
      exact h (j + 1) v hv

/-- A load passes the assembler's checks when its width is in `WIDTHS` and the three other checks of that width pass. -/
theorem loadFits_iff {n b : Nat} {ws : List Nat} :
    loadFits n b ws = true ↔
      ∃ w : Width, b = w.bits ∧ n < 2 ^ 64 ∧ divCeil n w.bits = ws.length ∧
        wordsFit ws.length w n 0 ws = true := by
  unfold loadFits
  cases h : widthOfNat b with
  | none =>
    simp only [Bool.false_eq_true, false_iff]
    rintro ⟨w, hw, _⟩
    rw [widthOfNat_eq_some.2 hw] at h
    cases h
  | some w =>
    have hw := widthOfNat_eq_some.1 h
    simp only [operandFits, Bool.and_eq_true, decide_eq_true_eq, and_assoc]
    refine ⟨fun hf => ⟨w, hw, hf⟩, ?_⟩
    rintro ⟨w', hw', hf⟩
    cases Width.bits_inj (hw'.symm.trans hw)
    exact hf

/-- The writes of a load are `WRW` of each word at its index, in order. -/
theorem storeWords_eq (k : Nat) (ws : List Nat) :
    storeWords k ws = (List.range ws.length).map fun j =>
      .wrw (BitVec.ofNat 64 (k + j)) (BitVec.ofNat 64 (ws.getD j 0)) := by
  induction ws generalizing k with
  | nil => rfl
  | cons w ws ih =>
    rw [storeWords, ih, List.length_cons, List.range_succ_eq_map, List.map_cons, List.map_map]
    refine congrArg _ (List.map_congr_left fun j _ => ?_)
    simp only [Function.comp_apply, List.getD_cons_succ, show k + 1 + j = k + (j + 1) by omega]

end Sys2Proof
end

