-- ==== Sys2Proof/Laws/Resizer.lean ====
section
/-! SUPPORT. When a resize has a value, and that every word of it fits the new width (R57). -/

namespace Sys2Proof.Machine

theorem resizerDomain_iff {ws : List Nat} {old : Width} :
    resizerDomain ws old = true ↔ ∀ v ∈ ws, v < 2 ^ old.bits := by
  simp [resizerDomain]

/-- The three cases of a resize that has a value (R54). -/
theorem resize_eq_some {ws out : List Nat} {old new : Width} :
    resize ws old new = some out ↔
      (∀ v ∈ ws, v < 2 ^ old.bits) ∧
        ((new = old ∧ out = ws) ∨ (old.bits < new.bits ∧ out = widen old.bits new.bits ws) ∨
          (new.bits < old.bits ∧ out = narrow old.bits new.bits ws)) := by
  unfold resize
  rw [← resizerDomain_iff]
  split
  · rename_i hd
    simp only [Option.some.injEq, hd, true_and]
    split
    · rename_i he; subst he; simp [eq_comm]
    · rename_i he
      have : old.bits ≠ new.bits := fun h => he (Width.bits_inj h).symm
      split
      · rename_i hlt
        simp [he, hlt, hlt.le.not_gt, eq_comm]
      · rename_i hge
        simp [he, hge, show new.bits < old.bits by omega, eq_comm]
  · simp_all

/-- A resize of words inside the domain has a value (R53). -/
theorem resize_isSome {ws : List Nat} {old : Width} (new : Width) (h : resizerDomain ws old = true) :
    ∃ out, resize ws old new = some out := by
  unfold resize; rw [if_pos h]; exact ⟨_, rfl⟩

/-- A chunk is below `2^new` by its mask (R56). -/
theorem chunk_lt (old new w c : Nat) : chunk old new w c < 2 ^ new :=
  Nat.and_lt_two_pow _ (by have := Nat.two_pow_pos new; unfold ones; omega)

theorem narrow_lt {old new : Nat} {ws : List Nat} {v : Nat} (h : v ∈ narrow old new ws) : v < 2 ^ new := by
  simp only [narrow, List.mem_flatMap, List.mem_map] at h
  obtain ⟨w, _, c, _, rfl⟩ := h
  exact chunk_lt _ _ _ _

/-- Narrowing makes exactly `old div new` words of each (R56). -/
@[simp] theorem narrow_length (old new : Nat) (ws : List Nat) :
    (narrow old new ws).length = ws.length * (old / new) := by
  induction ws with
  | nil => simp [narrow]
  | cons w ws ih =>
    simp only [narrow, List.flatMap_cons, List.length_append, List.length_map, List.length_range] at ih ⊢
    rw [ih, List.length_cons, Nat.succ_mul, Nat.add_comm]

/-- One turn of the widening loop keeps the accumulator below `2^processed` (R57). -/
theorem shift_or_lt {acc processed old w : Nat} (ha : acc < 2 ^ processed) (hw : w < 2 ^ old) :
    (acc <<< old) ||| w < 2 ^ (processed + old) := by
  refine Nat.or_lt_two_pow ?_ (hw.trans_le (Nat.pow_le_pow_right (by omega) (by omega)))
  rw [Nat.shiftLeft_eq, Nat.pow_add]
  exact Nat.mul_lt_mul_of_pos_right ha (Nat.two_pow_pos _)

/-- The padding loop fills the accumulator up to the new width and no further (R55). -/
theorem padFinal_lt {old new : Nat} (hold : 0 < old) (hd : old ∣ new) :
    ∀ (fuel acc processed : Nat), acc < 2 ^ processed → old ∣ processed → processed ≤ new →
      padFinal old new fuel acc processed < 2 ^ new
  | 0, acc, processed, ha, _, hp => ha.trans_le (Nat.pow_le_pow_right (by omega) hp)
  | fuel + 1, acc, processed, ha, hdp, hp => by
    unfold padFinal
    split
    · rename_i hlt
      refine padFinal_lt hold hd fuel _ _ (shift_or_lt ha (Nat.two_pow_pos _)) (Nat.dvd_add hdp dvd_rfl) ?_
      have := Nat.le_of_dvd (by omega) (Nat.dvd_sub hd hdp)
      omega
    · exact ha.trans_le (Nat.pow_le_pow_right (by omega) hp)

/-- Every output word of the widening loop is below `2^new` (R57). -/
theorem widenLoop_lt {old new : Nat} (hold : 0 < old) (hd : old ∣ new) :
    ∀ (ws : List Nat) (acc processed : Nat), (∀ v ∈ ws, v < 2 ^ old) → acc < 2 ^ processed →
      old ∣ processed → processed < new → ∀ v ∈ widenLoop old new ws acc processed, v < 2 ^ new
  | [], acc, processed, _, ha, hdp, hp => by
    intro v hv
    unfold widenLoop at hv
    split at hv
    · simp only [List.mem_singleton] at hv
      subst hv
      exact padFinal_lt hold hd _ _ _ ha hdp hp.le
    · simp at hv
  | w :: ws, acc, processed, hws, ha, hdp, hp => by
    have hw := hws w (by simp)
    have hrest : ∀ v ∈ ws, v < 2 ^ old := fun v hv => hws v (by simp [hv])
    have hstep := shift_or_lt ha hw
    intro v hv
    unfold widenLoop at hv
    split at hv
    · rename_i he
      rcases List.mem_cons.1 hv with rfl | hv
      · rwa [he] at hstep
      · exact widenLoop_lt hold hd ws 0 0 hrest (by simp) (dvd_zero _) (by omega) v hv
    · rename_i hne
      refine widenLoop_lt hold hd ws _ _ hrest hstep (Nat.dvd_add hdp dvd_rfl) ?_ v hv
      have := Nat.le_of_dvd (by omega) (Nat.dvd_sub hd hdp)
      omega

/-- Every word of a resize fits the new width (R57). -/
theorem resize_lt {ws out : List Nat} {old new : Width} (h : resize ws old new = some out) :
    ∀ v ∈ out, v < 2 ^ new.bits := by
  obtain ⟨hdom, ⟨rfl, rfl⟩ | ⟨hlt, rfl⟩ | ⟨hlt, rfl⟩⟩ := resize_eq_some.1 h
  · exact hdom
  · exact widenLoop_lt old.bits_pos (Width.bits_dvd_of_lt hlt) ws 0 0 hdom (by simp) (dvd_zero _) new.bits_pos
  · exact fun v hv => narrow_lt hv

end Sys2Proof.Machine
end

