-- ==== Sys2Proof/Laws/WordCodec.lean ====
section
/-! SUPPORT. The WordCodec's functions have a value exactly on their domain, and that value in arithmetic form. -/

namespace Sys2Proof.Machine

/-- The domain, as a proposition (R46). -/
theorem wordCodecDomain_iff {word position width : Nat} :
    wordCodecDomain word position width = true ↔
      1 ≤ width ∧ width ≤ 64 ∧ position < width ∧ word < 2 ^ 64 := by
  simp [wordCodecDomain, and_assoc]

/-- A value under a guard. -/
theorem guarded_eq_some {c : Prop} [Decidable c] {x v : Nat} :
    (if c then some x else none) = some v ↔ c ∧ v = x := by
  by_cases h : c
  · rw [if_pos h, Option.some.injEq, and_iff_right h, eq_comm]
  · simp [h]

theorem wcGet_eq_some {word position width v : Nat} :
    wcGet word position width = some v ↔
      wordCodecDomain word position width = true ∧ v = (word >>> (width - position - 1)) &&& 1 :=
  guarded_eq_some

theorem wcSet_eq_some {word position width v : Nat} :
    wcSet word position width = some v ↔
      wordCodecDomain word position width = true ∧ v = word ||| (1 <<< (width - position - 1)) :=
  guarded_eq_some

theorem wcClear_eq_some {word position width v : Nat} :
    wcClear word position width = some v ↔
      wordCodecDomain word position width = true ∧
        v = word &&& (ones width ^^^ (1 <<< (width - position - 1))) :=
  guarded_eq_some

/-- `wc_set` keeps a word inside its item width (R48). -/
theorem wcSet_lt {word position width v : Nat} (h : wcSet word position width = some v)
    (hw : word < 2 ^ width) : v < 2 ^ width := by
  obtain ⟨hd, rfl⟩ := wcSet_eq_some.1 h
  have hp := (wordCodecDomain_iff.1 hd).2.2.1
  refine Nat.or_lt_two_pow hw ?_
  rw [Nat.one_shiftLeft]
  exact Nat.pow_lt_pow_right (by omega) (by omega)

/-- `wc_clear` always leaves a word inside the width (R49). -/
theorem wcClear_lt {word position width v : Nat} (h : wcClear word position width = some v) :
    v < 2 ^ width := by
  obtain ⟨hd, rfl⟩ := wcClear_eq_some.1 h
  have hp := (wordCodecDomain_iff.1 hd).2.2.1
  refine Nat.and_lt_two_pow _ (Nat.xor_lt_two_pow ?_ ?_)
  · have := Nat.two_pow_pos width
    unfold ones; omega
  · rw [Nat.one_shiftLeft]
    exact Nat.pow_lt_pow_right (by omega) (by omega)

/-- The bits of `ones` (00_scope.md section 6). -/
@[simp] theorem testBit_ones (n j : Nat) : (ones n).testBit j = decide (j < n) := by
  simp [ones, Nat.testBit_two_pow_sub_one]

end Sys2Proof.Machine
end

