-- ==== Sys2Proof/Laws/Ops.lean ====
section
/-! SUPPORT. For each shared operation, once, everything it can do. -/

namespace Sys2Proof.Machine

variable {s t u : State}

@[simp] theorem respond_eq (s : State) (r : Nat) (p : List Byte) :
    respond s r p = .next (s.deliver { st := 0x00, r := s.resultWord r, p := p }) := rfl

@[simp] theorem raise_eq (s : State) (e : CommandError) :
    raise s e = .next (s.deliver (errorResponse e.code)) := rfl

/-- A result that fits 64 bits is delivered as it is (R40). -/
theorem resultWord_of_lt {r : Nat} (h : r < 2 ^ 64) : s.resultWord r = BitVec.ofNat 64 r := if_pos h

@[simp] theorem resultWord_zero : s.resultWord 0 = 0 := rfl

theorem resultWord_toNat {r : Nat} (h : r < 2 ^ 64) : (s.resultWord r).toNat = r := by
  rw [resultWord_of_lt h, BitVec.toNat_ofNat, Nat.mod_eq_of_lt h]

/-- `MemRead` answers a next state exactly when the word is there and the rest of the command does. -/
theorem memRead_next {k : Nat} {rest : Nat → StepResult} :
    memRead s k rest = .next t ↔ ∃ v, s.wordAt k = some v ∧ rest v = .next t := by
  unfold memRead
  cases h : s.wordAt k <;> simp

theorem memRead_of_some {k v : Nat} {rest : Nat → StepResult} (h : s.wordAt k = some v) :
    memRead s k rest = rest v := by simp [memRead, h]

/-- `MemWrite` answers a next state exactly inside its requirement, if the rest of the command does. -/
theorem memWrite_next {k n v : Nat} {rest : State → StepResult} :
    memWrite s k n v rest = .next t ↔
      (k < s.words.length ∧ n = s.iw k ∧ v < 2 ^ n) ∧ rest (s.setWord k v) = .next t := by
  unfold memWrite
  split
  · rename_i h; exact ⟨fun e => ⟨h, e⟩, fun e => e.2⟩
  · rename_i h; simp [h]

theorem memWrite_of_fits {k v : Nat} {rest : State → StepResult} (hk : k < s.words.length)
    (hv : v < 2 ^ s.iw k) : memWrite s k (s.iw k) v rest = rest (s.setWord k v) :=
  if_pos ⟨hk, rfl, hv⟩

/-- What the shared addressing of `GET`, `SET` and `CLR` can do (R62). -/
theorem withBit_next {i : Word} {rest : BitAddress → Nat → StepResult} :
    withBit i s rest = .next t ↔
      (s.bitcount ≤ i.toNat ∧ t = s.deliver (errorResponse 0x01)) ∨
      (i.toNat < s.bitcount ∧ ∃ v, s.wordAt (s.bitAddress i.toNat).wordIndex = some v ∧
        rest (s.bitAddress i.toNat) v = .next t) := by
  unfold withBit
  split
  · rename_i h
    simp [h, h.not_gt, CommandError.code, eq_comm]
  · rename_i h
    rw [memRead_next]
    simp only [h, false_and, false_or, show i.toNat < s.bitcount by omega, true_and]

/-- In a legal state a bit access in range reads its word (R21, R62). -/
theorem State.Inv.withBit (h : s.Inv) {i : Word} (hi : i.toNat < s.bitcount)
    (rest : BitAddress → Nat → StepResult) :
    ∃ v, s.wordAt (i.toNat / s.bpi.bits) = some v ∧ v < 2 ^ s.iw (i.toNat / s.bpi.bits) ∧
      wordCodecDomain v (i.toNat % s.bpi.bits) (s.iw (i.toNat / s.bpi.bits)) = true ∧
      Machine.withBit i s rest = rest (s.bitAddress i.toNat) v := by
  obtain ⟨hk, hp⟩ := h.address hi
  obtain ⟨v, hv, hlt⟩ := h.wordAt hk
  obtain ⟨h1, h64⟩ := h.iw_bounds hk
  refine ⟨v, hv, hlt, wordCodecDomain_iff.2 ⟨h1, h64, hp, ?_⟩, ?_⟩
  · exact hlt.trans_le (Nat.pow_le_pow_right (by omega) h64)
  · unfold Machine.withBit
    rw [if_neg (by omega)]
    exact memRead_of_some hv

/-- What `SET` and `CLR` can do (R63, R64). -/
theorem modifyBit_next {codec : Nat → Nat → Nat → Option Nat} {i : Word} :
    modifyBit codec i s = .next t ↔
      (s.bitcount ≤ i.toNat ∧ t = s.deliver (errorResponse 0x01)) ∨
      (i.toNat < s.bitcount ∧ ∃ v v', s.wordAt (i.toNat / s.bpi.bits) = some v ∧
        codec v (i.toNat % s.bpi.bits) (s.iw (i.toNat / s.bpi.bits)) = some v' ∧
        i.toNat / s.bpi.bits < s.words.length ∧ v' < 2 ^ s.iw (i.toNat / s.bpi.bits) ∧
        t = (s.setWord (i.toNat / s.bpi.bits) v').deliver (okResponse 0)) := by
  unfold modifyBit
  rw [withBit_next]
  refine or_congr_right (and_congr_right fun _ => exists_congr fun v => ?_)
  change (s.wordAt (i.toNat / s.bpi.bits) = some v ∧ _) ↔ _
  rw [exists_and_left]
  refine and_congr_right fun _ => ?_
  change (match codec v (i.toNat % s.bpi.bits) (s.iw (i.toNat / s.bpi.bits)) with
    | some v' => memWrite s (i.toNat / s.bpi.bits) (s.iw (i.toNat / s.bpi.bits)) v' fun t => respond t 0 []
    | none => .refused .wordCodecDomain) = .next t ↔ _
  cases codec v (i.toNat % s.bpi.bits) (s.iw (i.toNat / s.bpi.bits)) with
  | none => simp
  | some v' =>
    simp only [memWrite_next, respond_eq, Host.Outcome.next.injEq, Option.some.injEq, exists_eq_left',
      true_and, and_assoc]
    exact and_congr_right fun _ => and_congr_right fun _ => eq_comm

/-- What the shared index check of `RDW` and `WRW` can do (R66, R67). -/
theorem withWordIndex_next {k : Word} {rest : StepResult} :
    withWordIndex k s rest = .next t ↔
      (s.words.length ≤ k.toNat ∧ t = s.deliver (errorResponse 0x01)) ∨
      (k.toNat < s.words.length ∧ rest = .next t) := by
  unfold withWordIndex
  split
  · rename_i h
    simp [h, h.not_gt, CommandError.code, eq_comm]
  · rename_i h
    simp only [h, false_and, false_or, show k.toNat < s.words.length by omega, true_and]

/-- What `INIT` can do for any capacity (R61). -/
theorem construct_next {cap : Nat} {a d : Word} :
    construct cap a d s = .next t ↔
      ((∀ w : Width, d.toNat ≠ w.bits) ∧ t = s.deliver (errorResponse 0x02)) ∨
      ∃ w : Width, d.toNat = w.bits ∧
        ((cap < divCeil a.toNat w.bits * w.bits ∧ t = s.deliver (errorResponse 0x04)) ∨
          (divCeil a.toNat w.bits * w.bits ≤ cap ∧
            t = ({ s with
              words := List.replicate (divCeil a.toNat w.bits) 0
              bpi := w
              bitcount := a.toNat } : State).deliver (okResponse 0))) := by
  unfold construct
  cases h : widthOperand d with
  | none =>
    have hn := widthOperand_eq_none.1 h
    simp [hn, CommandError.code, eq_comm]
  | some w =>
    have hw := widthOperand_eq_some.1 h
    have hex : ∀ P : Width → Prop, (∃ w', d.toNat = w'.bits ∧ P w') ↔ P w := fun P =>
      ⟨fun ⟨w', hw', hp⟩ => Width.bits_inj (hw'.symm.trans hw) ▸ hp, fun hp => ⟨w, hw, hp⟩⟩
    rw [hex, or_iff_right (fun hc => hc.1 w hw)]
    dsimp only
    split
    · rename_i hlt
      simp [hlt, hlt.not_ge, CommandError.code, eq_comm]
    · rename_i hge
      simp only [hge, false_and, false_or, show divCeil a.toNat w.bits * w.bits ≤ cap by omega, true_and,
        respond_eq, Host.Outcome.next.injEq]
      exact eq_comm

end Sys2Proof.Machine
end

