-- ==== Sys2Proof/Laws/Exec.lean ====
section
/-! SUPPORT. One inversion lemma per command whose meaning is more than a shared operation, one for all commands, and one for
a step: what each can do when it answers a next state. -/

namespace Sys2Proof.Machine

variable {s t : State}

/-! `exec` of each command is its meaning. -/

theorem exec_init (a d : Word) (s : State) : exec (.init a d) s = construct Config.capBits a d s := rfl
theorem exec_get (a : Word) (s : State) : exec (.get a) s = execGet a s := rfl
theorem exec_set (a : Word) (s : State) : exec (.set a) s = modifyBit wcSet a s := rfl
theorem exec_clr (a : Word) (s : State) : exec (.clr a) s = modifyBit wcClear a s := rfl
theorem exec_chw (a : Word) (s : State) : exec (.chw a) s = execChw a s := rfl
theorem exec_rdw (a : Word) (s : State) : exec (.rdw a) s = execRdw a s := rfl
theorem exec_wrw (a d : Word) (s : State) : exec (.wrw a d) s = execWrw a d s := rfl
theorem exec_tobin (s : State) : exec .tobin s =
    .next (s.deliver { st := 0x00, r := s.resultWord (binaryText s.bpi.bits s.words).length, p := binaryText s.bpi.bits s.words }) := rfl
theorem exec_strb (s : State) : exec .strb s = execStrb s := rfl
theorem exec_rdn (s : State) : exec .rdn s = .next (s.deliver (okResponse (s.resultWord s.bitcount))) := rfl
theorem exec_rdbpi (s : State) : exec .rdbpi s = .next (s.deliver (okResponse (s.resultWord s.bpi.bits))) := rfl
theorem exec_rdlen (s : State) : exec .rdlen s = .next (s.deliver (okResponse (s.resultWord s.words.length))) := rfl

/-- What `GET` can do (R62). -/
theorem execGet_next {a : Word} :
    execGet a s = .next t ↔
      (s.bitcount ≤ a.toNat ∧ t = s.deliver (errorResponse 0x01)) ∨
      (a.toNat < s.bitcount ∧ ∃ v b, s.wordAt (a.toNat / s.bpi.bits) = some v ∧
        wcGet v (a.toNat % s.bpi.bits) (s.iw (a.toNat / s.bpi.bits)) = some b ∧
        t = s.deliver (okResponse (s.resultWord b))) := by
  unfold execGet
  rw [withBit_next]
  refine or_congr_right (and_congr_right fun _ => exists_congr fun v => ?_)
  change (s.wordAt (a.toNat / s.bpi.bits) = some v ∧ _) ↔ _
  rw [exists_and_left]
  refine and_congr_right fun _ => ?_
  change (match wcGet v (a.toNat % s.bpi.bits) (s.iw (a.toNat / s.bpi.bits)) with
    | some bit => respond s bit []
    | none => .refused .wordCodecDomain) = .next t ↔ _
  cases wcGet v (a.toNat % s.bpi.bits) (s.iw (a.toNat / s.bpi.bits)) with
  | none => simp
  | some b => simp only [respond_eq, Host.Outcome.next.injEq, Option.some.injEq, exists_eq_left', okResponse, eq_comm]

/-- What `CHW` can do (R65). -/
theorem execChw_next {a : Word} :
    execChw a s = .next t ↔
      ((∀ w : Width, a.toNat ≠ w.bits) ∧ t = s.deliver (errorResponse 0x02)) ∨
      (a.toNat = s.bpi.bits ∧ t = s.deliver (okResponse 0)) ∨
      ∃ w ws, a.toNat = w.bits ∧ w ≠ s.bpi ∧ resize s.words s.bpi w = some ws ∧
        t = (s.withStore ws w).deliver (okResponse 0) := by
  unfold execChw
  cases h : widthOperand a with
  | none =>
    have hn := widthOperand_eq_none.1 h
    simp [hn, CommandError.code, eq_comm]
  | some w =>
    have hw := widthOperand_eq_some.1 h
    have hu : ∀ w' : Width, a.toNat = w'.bits ↔ w' = w := fun w' =>
      ⟨fun e => Width.bits_inj (e.symm.trans hw), fun e => e ▸ hw⟩
    rw [or_iff_right (fun hc => hc.1 w hw)]
    simp only [hu]
    split
    · rename_i he
      subst he
      simp only [respond_eq, Host.Outcome.next.injEq, resultWord_zero, okResponse, true_and]
      refine ⟨fun e => .inl e.symm, fun e => e.elim Eq.symm ?_⟩
      rintro ⟨w', ws, rfl, hne, _⟩
      exact absurd rfl hne
    · rename_i hne
      rw [or_iff_right (fun hc => hne hc.1.symm)]
      cases hr : resize s.words s.bpi w with
      | none =>
        simp only [reduceCtorEq, false_iff]
        rintro ⟨w', ws, rfl, _, he, _⟩
        rw [hr] at he; cases he
      | some out =>
        simp only [respond_eq, Host.Outcome.next.injEq, resultWord_zero]
        refine ⟨fun e => ⟨w, out, rfl, hne, hr, e.symm⟩, ?_⟩
        rintro ⟨w', ws, rfl, _, he, rfl⟩
        rw [hr] at he; cases he; rfl

/-- What `RDW` can do (R66). -/
theorem execRdw_next {a : Word} :
    execRdw a s = .next t ↔
      (s.words.length ≤ a.toNat ∧ t = s.deliver (errorResponse 0x01)) ∨
      (a.toNat < s.words.length ∧ ∃ v, s.wordAt a.toNat = some v ∧
        t = s.deliver (okResponse (s.resultWord v))) := by
  unfold execRdw
  simp only [withWordIndex_next, memRead_next, respond_eq, Host.Outcome.next.injEq, okResponse]
  exact or_congr_right (and_congr_right fun _ => exists_congr fun v => and_congr_right fun _ => eq_comm)

/-- What `WRW` can do (R67). -/
theorem execWrw_next {a d : Word} :
    execWrw a d s = .next t ↔
      (s.words.length ≤ a.toNat ∧ t = s.deliver (errorResponse 0x01)) ∨
      (a.toNat < s.words.length ∧
        ((2 ^ s.iw a.toNat ≤ d.toNat ∧ t = s.deliver (errorResponse 0x03)) ∨
          (d.toNat < 2 ^ s.iw a.toNat ∧ t = (s.setWord a.toNat d.toNat).deliver (okResponse 0)))) := by
  unfold execWrw
  rw [withWordIndex_next]
  refine or_congr_right (and_congr_right fun hk => ?_)
  split
  · rename_i h
    simp [h, h.not_gt, CommandError.code, eq_comm]
  · rename_i h
    have hlt : d.toNat < 2 ^ s.iw a.toNat := by omega
    rw [memWrite_of_fits hk hlt, respond_eq, Host.Outcome.next.injEq]
    simp only [h, false_and, false_or, hlt, true_and, okResponse, eq_comm]
    rfl

/-- What `STRB` can do (R69). -/
theorem execStrb_next :
    execStrb s = .next t ↔ ∃ ws, resize s.words s.bpi .w8 = some ws ∧
      t = s.deliver { st := 0x00, r := s.resultWord (bytesOf ws).length, p := bytesOf ws } := by
  unfold execStrb
  cases resize s.words s.bpi .w8 with
  | none => simp
  | some ws => simp only [respond_eq, Host.Outcome.next.injEq, Option.some.injEq, exists_eq_left', eq_comm]

/-- Everything a command can do: it delivers one response, and before that it leaves the state as it is, writes one word of
the store inside `MemWrite`'s requirement, replaces the store by a resize, or constructs a new one within the capacity. The
last three only with status OK (R60). -/
theorem exec_next {i : Instr} (h : exec i s = .next t) :
    ∃ (u : State) (r : Response), t = u.deliver r ∧
      (u = s ∨
        (r = okResponse 0 ∧
          ((∃ k v, (i.format ≠ .z) ∧ k < s.words.length ∧ v < 2 ^ s.iw k ∧ u = s.setWord k v) ∨
            (∃ a w ws, i = .chw a ∧ a.toNat = w.bits ∧ w ≠ s.bpi ∧ resize s.words s.bpi w = some ws ∧
              u = s.withStore ws w) ∨
            (∃ a d w, i = .init a d ∧ d.toNat = w.bits ∧
              divCeil a.toNat w.bits * w.bits ≤ Config.capBits ∧
              u = { s with
                words := List.replicate (divCeil a.toNat w.bits) 0
                bpi := w
                bitcount := a.toNat })))) := by
  have hmod : ∀ {codec a}, i.format ≠ .z → modifyBit codec a s = .next t → ∃ (u : State) (r : Response),
      t = u.deliver r ∧ (u = s ∨ (r = okResponse 0 ∧
        (∃ k v, (i.format ≠ .z) ∧ k < s.words.length ∧ v < 2 ^ s.iw k ∧ u = s.setWord k v))) := by
    intro codec a hf hm
    rcases modifyBit_next.1 hm with ⟨_, rfl⟩ | ⟨_, v, v', _, _, hk, hv, rfl⟩
    · exact ⟨s, _, rfl, .inl rfl⟩
    · exact ⟨_, _, rfl, .inr ⟨rfl, _, _, hf, hk, hv, rfl⟩⟩
  have widen_case : ∀ {P Q : State → Response → Prop}, (∃ u r, t = u.deliver r ∧ (u = s ∨ (r = okResponse 0 ∧ P u r))) →
      ∃ u r, t = u.deliver r ∧ (u = s ∨ (r = okResponse 0 ∧ (P u r ∨ Q u r))) :=
    fun ⟨u, r, e, hc⟩ => ⟨u, r, e, hc.imp_right fun hp => ⟨hp.1, .inl hp.2⟩⟩
  cases i with
  | init a d =>
    rcases construct_next.1 h with ⟨_, rfl⟩ | ⟨w, hw, ⟨_, rfl⟩ | ⟨hc, rfl⟩⟩
    · exact ⟨s, _, rfl, .inl rfl⟩
    · exact ⟨s, _, rfl, .inl rfl⟩
    · exact ⟨_, _, rfl, .inr ⟨rfl, .inr (.inr ⟨a, d, w, rfl, hw, hc, rfl⟩)⟩⟩
  | get a =>
    rcases execGet_next.1 h with ⟨_, rfl⟩ | ⟨_, v, b, _, _, rfl⟩ <;> exact ⟨s, _, rfl, .inl rfl⟩
  | set a => exact widen_case (hmod (by simp [Instr.format]) h)
  | clr a => exact widen_case (hmod (by simp [Instr.format]) h)
  | chw a =>
    rcases execChw_next.1 h with ⟨_, rfl⟩ | ⟨_, rfl⟩ | ⟨w, ws, hw, hne, hr, rfl⟩
    · exact ⟨s, _, rfl, .inl rfl⟩
    · exact ⟨s, _, rfl, .inl rfl⟩
    · exact ⟨_, _, rfl, .inr ⟨rfl, .inr (.inl ⟨a, w, ws, rfl, hw, hne, hr, rfl⟩)⟩⟩
  | rdw a =>
    rcases execRdw_next.1 h with ⟨_, rfl⟩ | ⟨_, v, _, rfl⟩ <;> exact ⟨s, _, rfl, .inl rfl⟩
  | wrw a d =>
    rcases execWrw_next.1 h with ⟨_, rfl⟩ | ⟨hk, ⟨_, rfl⟩ | ⟨hv, rfl⟩⟩
    · exact ⟨s, _, rfl, .inl rfl⟩
    · exact ⟨s, _, rfl, .inl rfl⟩
    · exact ⟨_, _, rfl, .inr ⟨rfl, .inl ⟨a.toNat, d.toNat, by simp [Instr.format], hk, hv, rfl⟩⟩⟩
  | strb =>
    obtain ⟨ws, _, rfl⟩ := execStrb_next.1 h
    exact ⟨s, _, rfl, .inl rfl⟩
  | tobin => cases h; exact ⟨s, _, rfl, .inl rfl⟩
  | rdn => cases h; exact ⟨s, _, rfl, .inl rfl⟩
  | rdbpi => cases h; exact ⟨s, _, rfl, .inl rfl⟩
  | rdlen => cases h; exact ⟨s, _, rfl, .inl rfl⟩

/-- Everything a step can do: wait, take reset, run the decoded command, or raise IllegalCommand (R5, R60, R86). -/
theorem step_next (h : step s = .next t) :
    (s.port = [] ∧ t = s) ∨
    (∃ rest, s.port = .reset :: rest ∧ t = s.popPort.takeReset) ∨
    (∃ cw rest i, s.port = .command cw :: rest ∧ decode cw = .ok i ∧ exec i s.popPort = .next t) ∨
    (∃ cw rest e, s.port = .command cw :: rest ∧ decode cw = .error e ∧
      t = s.popPort.deliver (errorResponse 0x05)) := by
  unfold step at h
  split at h
  · rename_i hp; cases h; exact .inl ⟨hp, rfl⟩
  · rename_i rest hp; cases h; exact .inr (.inl ⟨rest, hp, rfl⟩)
  · rename_i cw rest hp
    split at h
    · rename_i i hd; exact .inr (.inr (.inl ⟨cw, rest, i, hp, hd, h⟩))
    · rename_i e hd; cases h; exact .inr (.inr (.inr ⟨cw, rest, e, hp, hd, rfl⟩))

/-- A run of one more step than `k`, where the first step answers a next state. -/
theorem run_succ_of_step {k : Nat} (h : step s = .next t) :
    Host.Core.run Sys2Proof.core (k + 1) s = Host.Core.run Sys2Proof.core k t := by
  have hc : Sys2Proof.core.step s = .next t := h
  simp only [Host.Core.run]
  rw [hc]

end Sys2Proof.Machine
end

