-- ==== Sys2Proof/Laws/PerInstr.lean ====
section
/-! SUPPORT. The families of statements made once per command. `OpcodeByte`: the `OP` byte of a command's encoding is the one
the opcode map gives it, and the two operand fields are what the command carries, zero where its format does not read them
(R34, R37, R39). -/

namespace Sys2Proof

theorem commandWord_op (op : Byte) (a d : Word) : CommandWord.op (commandWord op a d) = op := by
  unfold CommandWord.op commandWord
  ext i hi
  simp only [BitVec.getElem_extractLsb', BitVec.getLsbD_append]
  simp [show ¬ 128 + i < 64 by omega, show ¬ 128 + i - 64 < 64 by omega, show 128 + i - 64 - 64 = i by omega, hi]

theorem commandWord_a (op : Byte) (a d : Word) : CommandWord.a (commandWord op a d) = a := by
  unfold CommandWord.a commandWord
  ext i hi
  simp only [BitVec.getElem_extractLsb', BitVec.getLsbD_append]
  simp [hi]

theorem commandWord_d (op : Byte) (a d : Word) : CommandWord.d (commandWord op a d) = d := by
  unfold CommandWord.d commandWord
  ext i hi
  simp only [BitVec.getElem_extractLsb', BitVec.getLsbD_append]
  simp [hi]

/-- The opcode map's three fields of a command (R37). -/
def Laws.OpcodeByte.fields : Instr → Byte × Word × Word
  | .init a d => (0x01, a, d)
  | .get a => (0x02, a, 0)
  | .set a => (0x03, a, 0)
  | .clr a => (0x04, a, 0)
  | .chw a => (0x05, a, 0)
  | .rdw a => (0x06, a, 0)
  | .wrw a d => (0x07, a, d)
  | .tobin => (0x08, 0, 0)
  | .strb => (0x09, 0, 0)
  | .rdn => (0x0A, 0, 0)
  | .rdbpi => (0x0B, 0, 0)
  | .rdlen => (0x0C, 0, 0)

/-- The fields of the encoding are those of the opcode map. -/
def Laws.OpcodeByte.Statement (i : Instr) : Prop :=
  (CommandWord.op (encode i), CommandWord.a (encode i), CommandWord.d (encode i)) =
    Laws.OpcodeByte.fields i

theorem Laws.OpcodeByte.init (a d : Word) : Laws.OpcodeByte.Statement (.init a d) := by
  simp [Laws.OpcodeByte.Statement, encode, Laws.OpcodeByte.fields, commandWord_op, commandWord_a, commandWord_d]

theorem Laws.OpcodeByte.get (a : Word) : Laws.OpcodeByte.Statement (.get a) := by
  simp [Laws.OpcodeByte.Statement, encode, Laws.OpcodeByte.fields, commandWord_op, commandWord_a, commandWord_d]

theorem Laws.OpcodeByte.set (a : Word) : Laws.OpcodeByte.Statement (.set a) := by
  simp [Laws.OpcodeByte.Statement, encode, Laws.OpcodeByte.fields, commandWord_op, commandWord_a, commandWord_d]

theorem Laws.OpcodeByte.clr (a : Word) : Laws.OpcodeByte.Statement (.clr a) := by
  simp [Laws.OpcodeByte.Statement, encode, Laws.OpcodeByte.fields, commandWord_op, commandWord_a, commandWord_d]

theorem Laws.OpcodeByte.chw (a : Word) : Laws.OpcodeByte.Statement (.chw a) := by
  simp [Laws.OpcodeByte.Statement, encode, Laws.OpcodeByte.fields, commandWord_op, commandWord_a, commandWord_d]

theorem Laws.OpcodeByte.rdw (a : Word) : Laws.OpcodeByte.Statement (.rdw a) := by
  simp [Laws.OpcodeByte.Statement, encode, Laws.OpcodeByte.fields, commandWord_op, commandWord_a, commandWord_d]

theorem Laws.OpcodeByte.wrw (a d : Word) : Laws.OpcodeByte.Statement (.wrw a d) := by
  simp [Laws.OpcodeByte.Statement, encode, Laws.OpcodeByte.fields, commandWord_op, commandWord_a, commandWord_d]

theorem Laws.OpcodeByte.tobin : Laws.OpcodeByte.Statement .tobin := by
  simp [Laws.OpcodeByte.Statement, encode, Laws.OpcodeByte.fields, commandWord_op, commandWord_a, commandWord_d]

theorem Laws.OpcodeByte.strb : Laws.OpcodeByte.Statement .strb := by
  simp [Laws.OpcodeByte.Statement, encode, Laws.OpcodeByte.fields, commandWord_op, commandWord_a, commandWord_d]

theorem Laws.OpcodeByte.rdn : Laws.OpcodeByte.Statement .rdn := by
  simp [Laws.OpcodeByte.Statement, encode, Laws.OpcodeByte.fields, commandWord_op, commandWord_a, commandWord_d]

theorem Laws.OpcodeByte.rdbpi : Laws.OpcodeByte.Statement .rdbpi := by
  simp [Laws.OpcodeByte.Statement, encode, Laws.OpcodeByte.fields, commandWord_op, commandWord_a, commandWord_d]

theorem Laws.OpcodeByte.rdlen : Laws.OpcodeByte.Statement .rdlen := by
  simp [Laws.OpcodeByte.Statement, encode, Laws.OpcodeByte.fields, commandWord_op, commandWord_a, commandWord_d]

end Sys2Proof
end

