-- ==== Sys2Proof/Tests/Slice0.lean ====
section
/-! SUPPORT. The model's own tests. Every expected value is the spec's: 30_encoding.md for the words, 95_test_vectors.md (the
section named in each docstring) for the results. -/

namespace Sys2Proof.Tests

open Sys2Proof Sys2Proof.Machine

/-- A state `(words, bpi, N)` with nothing at the port and nothing delivered. -/
def st (ws : List Nat) (w : Width) (n : Nat) : State :=
  { words := ws, bpi := w, bitcount := n, port := [], responses := [] }

/-- The command answers a next state with this store, width, bit count and last response. -/
def ends (o : StepResult) (ws : List Nat) (w : Width) (n : Nat) (r : Response) : Bool :=
  match nextState? o with
  | some t => t.words == ws && t.bpi == w && t.bitcount == n && t.lastResponse == some r
  | none => false

/-! ## Decoding: each command's word written out from R34 and R37 -/

theorem test_decode_init : decode 0x0100000000000000280000000000000008 = .ok (.init 40 8) := by decide
theorem test_decode_get : decode 0x020000000000000007_00000000DEADBEEF = .ok (.get 7) := by decide
theorem test_decode_set : decode 0x0300000000000000270000000000000000 = .ok (.set 39) := by decide
theorem test_decode_clr : decode 0x04000000000000001F0000000000000000 = .ok (.clr 31) := by decide
theorem test_decode_chw : decode 0x0500000001000000080000000000000000 = .ok (.chw 0x100000008) := by decide
theorem test_decode_rdw : decode 0x0600000000000000020000000000000000 = .ok (.rdw 2) := by decide
theorem test_decode_wrw :
    decode 0x070000000000000000FFFFFFFFFFFFFFFF = .ok (.wrw 0 0xFFFFFFFFFFFFFFFF) := by decide
theorem test_decode_tobin : decode 0x0800000000000000000000000000000000 = .ok .tobin := by decide
theorem test_decode_strb : decode 0x0900000000000000000000000000000000 = .ok .strb := by decide
theorem test_decode_rdn : decode 0x0A123456789ABCDEF00FEDCBA987654321 = .ok .rdn := by decide
theorem test_decode_rdbpi : decode 0x0B00000000000000000000000000000000 = .ok .rdbpi := by decide
theorem test_decode_rdlen : decode 0x0C00000000000000000000000000000000 = .ok .rdlen := by decide

/-- V-ENC: the all-zero word, the first opcode after the map, and 0x82, which is not `GET`. -/
theorem test_decode_undefined :
    decode 0 = .error (.undefinedOpcode 0) ∧
    decode 0x0D00000000000000000000000000000009 = .error (.undefinedOpcode 0x0D) ∧
    decode 0x8200000000000000000000000000000000 = .error (.undefinedOpcode 0x82) := by decide

/-- R43: `WRW 2, 0x03` encodes as `07 0000000000000002 0000000000000003`. -/
theorem test_encode_wrw : encode (.wrw 2 3) = 0x0700000000000000020000000000000003 := by decide

/-- The opcode table's match value of `RDW` decodes to `RDW`, and its first 64 bits alone to nothing. -/
theorem test_decode_table_word :
    decodeTableWord 136 0x0600000000000000000000000000000000 = some (.rdw 0) ∧
    decodeTableWord 64 0x0600000000000000000000000000000000 = none := by decide

/-! ## The assembler: a smoke test for each check, and the spec's listings -/

theorem test_refuses_large_operand : (AsmLine.formatA .get (2 ^ 64)).wellFormed = false := by decide
theorem test_refuses_large_second_operand : (AsmLine.formatAD .wrw 0 (2 ^ 64)).wellFormed = false := by decide
theorem test_refuses_wrong_format : (AsmLine.formatZ .get).wellFormed = false := by decide
theorem test_refuses_operand_of_format_z : (AsmLine.formatA .tobin 0).wellFormed = false := by decide
theorem test_refuses_unread_operand : (AsmLine.formatAD .get 7 0).wellFormed = false := by decide
theorem test_refuses_load_width : (AsmLine.loadw 9 [1]).wellFormed = false := by decide
theorem test_refuses_load_word : (AsmLine.loadw 8 [256]).wellFormed = false := by decide
theorem test_refuses_load_count : (AsmLine.loadwn 17 8 [1, 2]).wellFormed = false := by decide
theorem test_refuses_load_short_word : (AsmLine.loadwn 10 8 [0, 4]).wellFormed = false := by decide
theorem test_accepts_load : (AsmLine.loadwn 10 8 [0, 3]).wellFormed = true := by decide

/-- P1: `LOADW 8, [1, 2, 3]` expands to `INIT 24, 8` and three `WRW`. -/
theorem test_expand_loadw :
    (AsmLine.loadw 8 [1, 2, 3]).expand = some [.init 24 8, .wrw 0 1, .wrw 1 2, .wrw 2 3] := by decide

/-- R43: `WRW 2, 0x03 ; comment`. -/
theorem test_assemble_wrw :
    assembleLine ['W', 'R', 'W', ' ', '2', ',', ' ', '0', 'x', '0', '3', ' ', ';', 'c'] =
      .ok [0x0700000000000000020000000000000003] := by decide

/-- R44: the text of a load, and a mnemonic in small letters (R43). -/
theorem test_assemble_load :
    readLine ['L', 'O', 'A', 'D', 'W', ' ', '8', ',', '[', '1', ',', '2', ']'] = .ok (some (.loadw 8 [1, 2])) ∧
    readLine ['g', 'e', 't', ' ', '7'] = .error .unknownMnemonic := by decide

/-! ## The leaf units -/

/-- V-WC: width 1, a short width, and the width-64 mask. -/
theorem test_word_codec :
    wcGet 0x3 0 2 = some 1 ∧ wcSet 0x0 0 1 = some 1 ∧
    wcClear 0xFFFFFFFFFFFFFFFF 31 64 = some 0xFFFFFFFEFFFFFFFF ∧
    wcSet 0 0 64 = some 0x8000000000000000 ∧ wcGet 1 8 8 = none := by decide

/-- V-RS: padding, an exact merge, and splits. -/
theorem test_resize :
    resize [1, 2, 3, 4, 5] .w8 .w16 = some [0x0102, 0x0304, 0x0500] ∧
    resize [0xAB] .w8 .w64 = some [0xAB00000000000000] ∧
    resize [0xDEADBEEF, 0x01020304, 0xFFFFFFFF] .w32 .w64 = some [0xDEADBEEF01020304, 0xFFFFFFFF00000000] ∧
    resize [0x0102030405060708] .w64 .w16 = some [0x0102, 0x0304, 0x0506, 0x0708] ∧
    resize [258, 772, 1280] .w16 .w8 = some [1, 2, 3, 4, 5, 0] ∧ resize [256] .w8 .w16 = none := by decide

/-! ## Commands -/

/-- V-INIT at `CAP_BITS = 1024`: a short last word, and the three failing corners. -/
theorem test_init :
    ends (construct 1024 10 8 (st [0x5A] .w8 8)) [0, 0] .w8 10 ⟨0, 0, []⟩ ∧
    ends (construct 1024 5 9 (st [0x5A] .w8 8)) [0x5A] .w8 8 ⟨2, 0, []⟩ ∧
    ends (construct 1024 1025 8 (st [0x5A] .w8 8)) [0x5A] .w8 8 ⟨4, 0, []⟩ ∧
    ends (construct 1024 0xFFFFFFFFFFFFFFFF 9 (st [0x5A] .w8 8)) [0x5A] .w8 8 ⟨2, 0, []⟩ := by
  decide

/-- V-INIT: `INIT 40, 8` fits every legal capacity. -/
theorem test_init_any_capacity :
    exec (.init 40 8) (st [0x5A] .w8 8) = .next ((st [0, 0, 0, 0, 0] .w8 40).deliver ⟨0, 0, []⟩) := by
  change construct Config.capBits 40 8 (st [0x5A] .w8 8) = _
  exact construct_next.2 (.inr ⟨.w8, rfl, .inr ⟨(by decide : _ ≤ 64).trans Config.capBits_ge, rfl⟩⟩)

/-- V-BIT, S3: `GET 16` returns 0, `GET 22` returns 1, `GET 24` is out of range. -/
theorem test_get :
    ends (exec (.get 16) (st [1, 2, 3] .w8 24)) [1, 2, 3] .w8 24 ⟨0, 0, []⟩ ∧
    ends (exec (.get 22) (st [1, 2, 3] .w8 24)) [1, 2, 3] .w8 24 ⟨0, 1, []⟩ ∧
    ends (exec (.get 24) (st [1, 2, 3] .w8 24)) [1, 2, 3] .w8 24 ⟨1, 0, []⟩ := by decide

/-- V-BIT: in a short last word bit 8 is value bit 1, not 0x80. -/
theorem test_set :
    ends (exec (.set 8) (st [0, 0] .w8 10)) [0, 2] .w8 10 ⟨0, 0, []⟩ ∧
    ends (exec (.set 10) (st [0, 0] .w8 10)) [0, 0] .w8 10 ⟨1, 0, []⟩ := by decide

/-- V-BIT: the width-64 mask, and a short last word. -/
theorem test_clr :
    ends (exec (.clr 31) (st [0xFFFFFFFFFFFFFFFF] .w64 64)) [0xFFFFFFFEFFFFFFFF] .w64 64 ⟨0, 0, []⟩ ∧
    ends (exec (.clr 9) (st [0, 3] .w8 10)) [0, 2] .w8 10 ⟨0, 0, []⟩ := by decide

/-- V-CHW (b), (d), (f). -/
theorem test_chw :
    ends (exec (.chw 16) (st [1, 2, 3, 4, 5] .w8 40)) [0x0102, 0x0304, 0x0500] .w16 48 ⟨0, 0, []⟩ ∧
    ends (exec (.chw 8) (st [0x03FF] .w16 10)) [0x03, 0xFF] .w8 16 ⟨0, 0, []⟩ ∧
    ends (exec (.chw 8) (st [0xAB, 0x03] .w8 10)) [0xAB, 0x03] .w8 10 ⟨0, 0, []⟩ := by decide

/-- V-CHW: all 64 bits of `A` are compared. -/
theorem test_chw_bad_width :
    ends (exec (.chw 0x100000008) (st [1, 2, 3] .w8 24)) [1, 2, 3] .w8 24 ⟨2, 0, []⟩ := by decide

/-- V-WORD. -/
theorem test_rdw :
    ends (exec (.rdw 2) (st [258, 772, 1280] .w16 48)) [258, 772, 1280] .w16 48 ⟨0, 0x500, []⟩ ∧
    ends (exec (.rdw 3) (st [258, 772, 1280] .w16 48)) [258, 772, 1280] .w16 48 ⟨1, 0, []⟩ := by decide

/-- V-WORD: the limit of a short word is its item width, and the index check comes first. -/
theorem test_wrw :
    ends (exec (.wrw 1 3) (st [0, 0] .w8 10)) [0, 3] .w8 10 ⟨0, 0, []⟩ ∧
    ends (exec (.wrw 1 4) (st [0, 0] .w8 10)) [0, 0] .w8 10 ⟨3, 0, []⟩ ∧
    ends (exec (.wrw 3 256) (st [0, 0, 0] .w8 24)) [0, 0, 0] .w8 24 ⟨1, 0, []⟩ := by decide

/-- V-EXP: `10101011 00000011`, 17 bytes. -/
theorem test_tobin :
    ends (exec .tobin (st [0xAB, 0x03] .w8 10)) [0xAB, 0x03] .w8 10 ⟨0, 17,
        [0x31, 0x30, 0x31, 0x30, 0x31, 0x30, 0x31, 0x31, 0x20,
         0x30, 0x30, 0x30, 0x30, 0x30, 0x30, 0x31, 0x31]⟩ := by decide

/-- V-EXP: a short word at nominal width, the state untouched. -/
theorem test_strb :
    ends (exec .strb (st [0x03FF] .w16 10)) [0x03FF] .w16 10 ⟨0, 2, [0x03, 0xFF]⟩ := by decide

/-- V-EXP. -/
theorem test_rdn :
    ends (exec .rdn (st [258, 772, 1280] .w16 48)) [258, 772, 1280] .w16 48 ⟨0, 0x30, []⟩ := by decide

/-- V-EXP. -/
theorem test_rdbpi :
    ends (exec .rdbpi (st [258, 772, 1280] .w16 48)) [258, 772, 1280] .w16 48 ⟨0, 0x10, []⟩ := by decide

/-- V-EXP. -/
theorem test_rdlen :
    ends (exec .rdlen (st [0, 0] .w8 10)) [0, 0] .w8 10 ⟨0, 2, []⟩ := by decide

/-- P4: the first command after reset, `GET 0`, through the port. -/
theorem test_step_get_after_reset :
    ends (Machine.step (State.reset.withFetchWord 136 0x0200000000000000000000000000000000)) [] .w8 0 ⟨1, 0, []⟩ := by decide

/-- V-ERR: an undefined opcode through the port, and a reset event. -/
theorem test_step_illegal_and_reset :
    ends (Machine.step ((st [1] .w8 8).present [.command 0x0E00000000000000000000000000000000])) [1] .w8 8 ⟨5, 0, []⟩ ∧
    nextState? (Machine.step ((st [1] .w16 16).present [.reset])) = some State.reset := by decide

/-! ## Witnesses: a concrete state and operands that meet the hypotheses of each statement that has any -/

/-- `([1,2,3], 8, 24)`, a full store. -/
def full : State := st [1, 2, 3] .w8 24

/-- `([0xAB, 0x03], 8, 10)`, a short last word. -/
def short : State := st [0xAB, 0x03] .w8 10

/-- The empty array. -/
def empty : State := st [] .w8 0

theorem full_inv : full.Inv := ⟨by decide, (by decide : full.words.length * full.bpi.bits ≤ 64).trans Config.capBits_ge⟩
theorem short_inv : short.Inv := ⟨by decide, (by decide : short.words.length * short.bpi.bits ≤ 64).trans Config.capBits_ge⟩
theorem empty_inv : empty.Inv := ⟨by decide, (by decide : empty.words.length * empty.bpi.bits ≤ 64).trans Config.capBits_ge⟩

theorem witness_EncodeOfDecodeClearsUnreadFields :
    decode 0x020000000000000007_00000000DEADBEEF = .ok (.get 7) := by decide

/-- One word of each format with every unread field changed. -/
theorem witness_UnreadFieldsAreIgnoredAndEmittedAsZero :
    (decode 0x020000000000000007_00000000DEADBEEF = .ok (.get 7) ∧
      CommandWord.op 0x0200000000000000070000000000000000 = CommandWord.op 0x020000000000000007_00000000DEADBEEF ∧
      CommandWord.a 0x0200000000000000070000000000000000 = CommandWord.a 0x020000000000000007_00000000DEADBEEF ∧
      (Instr.get 7).format ≠ .ad) ∧ Instr.tobin.format = .z := by decide

/-- The boundary opcodes 0x01, 0x0C, 0x00, 0x0D and 0xFF. -/
theorem witness_ExactlyTwelveOpcodesDecode :
    (CommandWord.op 0x0100000000000000000000000000000000).toNat = 1 ∧
    (CommandWord.op 0x0C00000000000000000000000000000000).toNat = 12 ∧
    (CommandWord.op 0).toNat = 0 ∧
    (CommandWord.op 0x0D00000000000000000000000000000000).toNat = 13 ∧
    13 ≤ (CommandWord.op 0xFF00000000000000000000000000000000).toNat := by decide

theorem witness_StepRunsTheDecodedCommand :
    (full.present [.command 0x0200000000000000070000000000000000]).port =
      .command 0x0200000000000000070000000000000000 :: [] ∧
    decode 0x0200000000000000070000000000000000 = .ok (.get 7) := by decide

/-- Both boundary opcodes for the first clause, and a command that ends in an error for the second. -/
theorem witness_UndefinedOpcodeRaisesIllegalCommand :
    ((full.present [.command 0]).port = .command 0 :: [] ∧ (CommandWord.op 0).toNat = 0) ∧
    13 ≤ (CommandWord.op 0x0D00000000000000000000000000000000).toNat ∧
    nextState? (exec (.get 24) full) = some (full.deliver (errorResponse 1)) ∧
    (full.deliver (errorResponse 1)).responses = full.responses ++ [errorResponse 1] := by decide

theorem witness_StepTakesResetBetweenCommands :
    (full.present [.reset]).port = .reset :: [] := by decide

theorem witness_StepWaitsAtAnEmptyPort : full.port = [] := rfl

/-- A legal and a bad width for each of `CHW` and `INIT`, and both sides of the capacity. -/
theorem witness_EmptyArrayAnswersEveryCommand :
    empty.words = [] ∧ empty.bitcount = 0 ∧ (16 : Word).toNat = Width.w16.bits ∧
    (∀ w : Width, (9 : Word).toNat ≠ w.bits) ∧
    Config.capBits < divCeil (BitVec.allOnes 64).toNat Width.w16.bits * Width.w16.bits ∧
    ¬ Config.capBits < divCeil (16 : Word).toNat Width.w16.bits * Width.w16.bits :=
  ⟨rfl, rfl, rfl, fun w => by cases w <;> decide, Config.capBits_le.trans_lt (by decide),
    not_lt.2 ((by decide : _ ≤ 64).trans Config.capBits_ge)⟩

theorem witness_StepKeepsLegalStates :
    (full.present [.command 0x0300000000000000000000000000000000]).Inv ∧
      ∃ t, Machine.step (full.present [.command 0x0300000000000000000000000000000000]) = .next t ∧
        t.words = [0x81, 2, 3] :=
  ⟨⟨full_inv.store, full_inv.capacity⟩, _, rfl, by decide⟩

/-- A state that only `INIT` reaches from reset. -/
theorem witness_ReachableStatesAreLegalAndNeverStop :
    ∃ s, Reachable s ∧ s.bitcount = 40 := by
  refine ⟨(st [0, 0, 0, 0, 0] .w8 40).deliver ⟨0, 0, []⟩, ?_, rfl⟩
  refine Reachable.step (Reachable.present [.command 0x0100000000000000280000000000000008] Reachable.reset) ?_
  change construct Config.capBits 40 8 State.reset = _
  exact construct_next.2 (.inr ⟨.w8, rfl, .inr ⟨(by decide : _ ≤ 64).trans Config.capBits_ge, rfl⟩⟩)

/-- A response with a payload, whose length `R` holds, from a store with a word. -/
theorem witness_EveryCommandDeliversOneResponse :
    full.Inv ∧ full.words ≠ [] ∧ exec .strb full = .next (full.deliver ⟨0, 3, [1, 2, 3]⟩) ∧
    Instr.strb ∈ [Instr.tobin, .strb] := ⟨full_inv, by decide, rfl, by decide⟩

/-- A command, a reset and an empty port. -/
theorem witness_DeliveredResponsesNeverChange :
    (nextState? (Machine.step (full.present [.command 0x0200000000000000070000000000000000]))).isSome ∧
    (nextState? (Machine.step (full.present [.reset]))).isSome ∧ (nextState? (Machine.step full)).isSome := by decide

theorem witness_ReadCommandsChangeNothingAndRepeat :
    exec (.get 7) full = .next (full.deliver (okResponse 1)) ∧
    exec (.rdw 3) full = .next (full.deliver (errorResponse 1)) := ⟨rfl, rfl⟩

/-- `GET 24` on a store of 24 bits, through the port. -/
theorem witness_ErrorsChangeNothing :
    Machine.step (full.present [.command 0x0200000000000000180000000000000000]) =
      .next (full.deliver (errorResponse 1)) ∧ (errorResponse 1).st ≠ 0x00 := ⟨rfl, by decide⟩

theorem witness_FailedCommandFailsAgain :
    exec (.chw 9) full = .next (full.deliver (errorResponse 2)) ∧ (errorResponse 2).st ≠ 0x00 := ⟨rfl, by decide⟩

theorem witness_StatusCodesOfEachCommand :
    exec (.wrw 3 256) full = .next (full.deliver (errorResponse 1)) ∧
    exec .rdn full = .next (full.deliver (okResponse 24)) := ⟨rfl, rfl⟩

theorem witness_OnlyInitAndChwWriteWidthAndCount :
    ∃ t, exec (.chw 16) full = .next t ∧ t.bpi ≠ full.bpi ∧ t.bitcount ≠ full.bitcount :=
  ⟨_, rfl, by decide, by decide⟩

theorem witness_OutcomeDependsOnTheEngineStateAlone :
    (full.present [.reset]).words = full.words ∧ (full.present [.reset]).bpi = full.bpi ∧
    (full.present [.reset]).bitcount = full.bitcount ∧
    ∃ t, exec (.set 0) full = .next t ∧ t.words = [0x81, 2, 3] :=
  ⟨rfl, rfl, rfl, _, rfl, by decide⟩

/-- A bad width; the largest count at width 8; and a count that fits every capacity exactly. -/
theorem witness_InitConstructsAZeroStore :
    (∀ w : Width, (9 : Word).toNat ≠ w.bits) ∧
    ((8 : Word).toNat = Width.w8.bits ∧
      Config.capBits < divCeil (BitVec.allOnes 64).toNat Width.w8.bits * Width.w8.bits) ∧
    divCeil (64 : Word).toNat Width.w64.bits * Width.w64.bits ≤ Config.capBits := by
  refine ⟨fun w => by cases w <;> decide, ⟨rfl, ?_⟩, ?_⟩
  · exact Config.capBits_le.trans_lt (by decide)
  · exact (by decide : _ ≤ 64).trans Config.capBits_ge

/-- The last bit of a full and of a short last word. -/
theorem witness_EffectiveAddressIsInsideTheStore : (full.Inv ∧ 23 < full.bitcount) ∧ short.Inv ∧ 9 < short.bitcount :=
  ⟨⟨full_inv, by decide⟩, short_inv, by decide⟩

theorem witness_GetReturnsTheAddressedBit :
    (full.Inv ∧ (23 : Word).toNat < full.bitcount) ∧ short.Inv ∧ (8 : Word).toNat < short.bitcount :=
  ⟨⟨full_inv, by decide⟩, short_inv, by decide⟩

theorem witness_SetWritesOneWord : short.Inv ∧ (8 : Word).toNat < short.bitcount := ⟨short_inv, by decide⟩

theorem witness_ClrWritesOneWord : short.Inv ∧ (9 : Word).toNat < short.bitcount := ⟨short_inv, by decide⟩

theorem witness_BitWriteChangesExactlyTheAddressedBit :
    full.Inv ∧ (0 : Word).toNat < full.bitcount ∧
    exec (.set 0) full = .next ((st [0x81, 2, 3] .w8 24).deliver (okResponse 0)) ∧
    exec (.clr 0) full = .next (full.deliver (okResponse 0)) := ⟨full_inv, by decide, rfl, rfl⟩

theorem witness_SetAndClrAreIdempotent :
    full.Inv ∧ (0 : Word).toNat < full.bitcount ∧ ∃ t u v w : State,
      exec (.set 0) full = .next t ∧ exec (.set 0) t = .next u ∧
      exec (.clr 0) t = .next v ∧ exec (.clr 0) full = .next w ∧ ∃ x, exec (.clr 0) w = .next x :=
  ⟨full_inv, by decide, _, _, _, _, rfl, rfl, rfl, rfl, _, rfl⟩

theorem witness_StoringCommandsTouchOneWord :
    exec (.set 0) full = .next ((st [0x81, 2, 3] .w8 24).deliver (okResponse 0)) ∧
    exec (.clr 7) full = .next ((st [0, 2, 3] .w8 24).deliver (okResponse 0)) ∧
    exec (.wrw 2 255) full = .next ((st [1, 2, 255] .w8 24).deliver (okResponse 0)) := ⟨rfl, rfl, rfl⟩

/-- The boundaries of both spaces, on either side. -/
theorem witness_IndexOutOfRangeExactlyOutsideTheSpaces :
    full.Inv ∧ full.bitcount ≤ (24 : Word).toNat ∧ ¬ full.bitcount ≤ (23 : Word).toNat ∧
    full.words.length ≤ (3 : Word).toNat ∧ ¬ full.words.length ≤ (2 : Word).toNat :=
  ⟨full_inv, by decide, by decide, by decide, by decide⟩

theorem witness_ChwRepacksTheStore :
    short.Inv ∧ (8 : Word).toNat = Width.w8.bits ∧ Width.w8 = short.bpi ∧
    (64 : Word).toNat = Width.w64.bits ∧ Width.w64 ≠ short.bpi := ⟨short_inv, by decide, by decide, by decide, by decide⟩

/-- A widening that pads, so that the clause about added bits is met too. -/
theorem witness_ChwKeepsTheBitsOfAFullStore :
    full.Inv ∧ full.bitcount % full.bpi.bits = 0 ∧ (16 : Word).toNat = Width.w16.bits ∧
    exec (.chw 16) full = .next ((st [0x0102, 0x0300] .w16 32).deliver (okResponse 0)) :=
  ⟨full_inv, by decide, by decide, rfl⟩

theorem witness_ChwMovesTheBitsOfAShortLastWord :
    short.Inv ∧ short.bitcount % short.bpi.bits ≠ 0 ∧ (16 : Word).toNat = Width.w16.bits ∧
    Width.w16 ≠ short.bpi ∧
    exec (.chw 16) short = .next ((st [0xAB03] .w16 16).deliver (okResponse 0)) :=
  ⟨short_inv, by decide, by decide, by decide, rfl⟩

theorem witness_RdwReturnsTheWord : short.Inv ∧ (1 : Word).toNat < short.words.length := ⟨short_inv, by decide⟩

/-- The index just out of range; the least value that does not fit and the largest that does. -/
theorem witness_WrwChecksThenWritesTheWord :
    short.words.length ≤ (2 : Word).toNat ∧ (1 : Word).toNat < short.words.length ∧
    2 ^ short.iw (1 : Word).toNat ≤ (4 : Word).toNat ∧ (3 : Word).toNat < 2 ^ short.iw (1 : Word).toNat := by decide

theorem witness_WordWriteIsSeenInTheBitSpace :
    short.Inv ∧ (1 : Word).toNat < short.words.length ∧ (2 : Word).toNat < 2 ^ short.iw (1 : Word).toNat ∧
    exec (.wrw 1 2) short = .next ((st [0xAB, 2] .w8 10).deliver (okResponse 0)) ∧ 9 < short.bitcount :=
  ⟨short_inv, by decide, by decide, rfl, by decide⟩

/-- The payload fits `R`, a digit index and a separator index are met. -/
theorem witness_TobinDeliversTheBinaryGroups :
    (binaryText short.bpi.bits short.words).length < 2 ^ 64 ∧ short.wordAt 1 = some 3 ∧ 7 < short.bpi.bits ∧
    0 + 1 < short.words.length := by decide

theorem witness_StrbDeliversTheBytes :
    (st [0x03FF] .w16 10).Inv ∧ (st [0x03FF] .w16 10).wordAt 0 = some 0x03FF ∧
    1 < (st [0x03FF] .w16 10).bpi.bits / 8 :=
  ⟨⟨by decide, (by decide : 1 * 16 ≤ 64).trans Config.capBits_ge⟩, by decide, by decide⟩

theorem witness_StatusReadsReturnTheViews : short.Inv := short_inv

/-- Inside the domain at width 64, and outside it in each way. -/
theorem witness_WordCodecActsOnOneBit :
    ((1 ≤ 64 ∧ 64 ≤ 64 ∧ 0 < 64 ∧ 2 ^ 64 - 1 < 2 ^ 64) ∧ ¬ (1 ≤ 0) ∧ ¬ (65 ≤ 64)) ∧
    ¬ (8 < 8) ∧ ¬ (2 ^ 64 < 2 ^ 64) := by decide

theorem witness_WordCodecLaws :
    1 ≤ 2 ∧ 2 ≤ 64 ∧ 0 < 2 ∧ 3 < 2 ^ 64 ∧ (1 < 2 ∧ 1 ≠ 0) ∧ 3 < 2 ^ 2 := by decide

/-- The largest word of the domain, and the smallest outside it. -/
theorem witness_ResizeIsItsClosedForm :
    (∀ v ∈ [255], v < 2 ^ Width.w8.bits) ∧ ¬ (∀ v ∈ [256], v < 2 ^ Width.w8.bits) ∧
    Width.w8.bits < Width.w16.bits ∧ Width.w8.bits < Width.w64.bits := by decide

theorem witness_ResizePreservesTheBitStream : resize [1, 2, 3] .w8 .w16 = some [0x0102, 0x0300] := by decide

theorem witness_ResizeRoundTrip :
    resize [1, 2, 3] .w8 .w16 = some [0x0102, 0x0300] ∧ resize [0x0102] .w16 .w8 = some [1, 2] := by decide

/-- A legal load with a short last word. -/
theorem legal_short_load : LegalLoad .w8 10 8 [0, 3] where
  width := rfl
  count := by decide
  length := by decide
  fits k v h := by
    match k with
    | 0 | 1 => cases h; decide
    | k + 2 => cases h

/-- A `LOADWN` with a short last word, and a `LOADW`, each with an event behind it; both are legal loads. -/
theorem witness_LoadExpansionFillsTheStore :
    LegalLoad .w8 10 8 [0, 3] ∧ LegalLoad .w8 (8 * [1].length) 8 [1] ∧
    (AsmLine.loadwn 10 8 [0, 3]).expand = some [.init 10 8, .wrw 0 0, .wrw 1 3] ∧
    divCeil 10 8 * 8 ≤ Config.capBits ∧
    (AsmLine.loadw 8 [1]).expand = some [.init 8 8, .wrw 0 1] ∧ 8 = 8 * [1].length ∧
    (full.present ([Instr.init 8 8, .wrw 0 1].map (fun i => PortEvent.command (encode i)) ++ [.reset])).port =
      [Instr.init 8 8, .wrw 0 1].map (fun i => PortEvent.command (encode i)) ++ [.reset] :=
  ⟨legal_short_load,
    ⟨rfl, by decide, by decide, fun k v h => by
      match k with
      | 0 => cases h; decide
      | k + 1 => cases h⟩,
    by decide, (by decide : _ ≤ 64).trans Config.capBits_ge, by decide, by decide, by decide⟩

/-- A legal load of each kind; a bad width, the least bit count that no operand holds (explicit and inferred), a wrong count,
and the least word that does not fit, in each kind of load. -/
theorem witness_AssemblerExpandsLegalLoadsAndRefusesOthers :
    (LegalLoad .w8 10 8 [0, 3] ∧ 8 = Width.w8.bits ∧ 8 * [255].length < 2 ^ 64 ∧ ∀ v ∈ [255], v < 2 ^ 8) ∧
    (∀ w : Width, 9 ≠ w.bits) ∧ 2 ^ 64 ≤ 18446744073709551616 ∧
    2 ^ 64 ≤ 64 * (List.replicate (2 ^ 58) 0).length ∧ divCeil 17 8 ≠ [1, 2].length ∧
    (8 = Width.w8.bits ∧ [0, 4][1]? = some 4 ∧ 2 ^ itemWidth 2 .w8 10 1 ≤ 4) ∧
    ([256][0]? = some 256 ∧ 2 ^ itemWidth 1 .w8 (8 * 1) 0 ≤ 256) :=
  ⟨⟨legal_short_load, by decide, by decide, by decide⟩, fun w => by cases w <;> decide, by decide,
    by rw [List.length_replicate]; decide, by decide, by decide, by decide⟩

end Sys2Proof.Tests
end

/-! ## Steps and responses (00_scope.md)

What one step does with the command in front at the port (R5, R60); that every command of a legal state completes; and
the form of the response it delivers (R40, R41). -/

namespace Sys2Proof.Machine

variable {s t : State} {i : Instr}

/-! ### A step at a command word -/

theorem popPort_of_port {e : PortEvent} {rest : List PortEvent} (hp : s.port = e :: rest) :
    s.popPort = { s with port := rest } := by
  simp only [State.popPort, hp, List.tail_cons]

/-- The converse of `step_next` for a word that decodes (R60). -/
theorem step_of_decode {cw : CommandWord} {rest : List PortEvent} (hp : s.port = .command cw :: rest)
    (hd : decode cw = .ok i) : step s = exec i s.popPort := by
  simp only [step, hp, hd]

/-- Settles O6: a step's `exec` runs after the port's first event is taken, and that leaves `rest`. -/
theorem stepRunsTheDecodedCommand : Obligations.StepRunsTheDecodedCommand := by
  intro s cw rest i hp hd
  rw [step_of_decode hp hd, popPort_of_port hp]

/-! ### Every command of a legal state completes

Outside the commands' own checks a stop is a call of a unit outside its domain (`Fault`, `Refusal`), and the canonical form of
the store keeps every such call inside. -/

theorem construct_completes (cap : Nat) (a d : Word) (s : State) : ∃ t, construct cap a d s = .next t := by
  unfold construct
  cases widthOperand d with
  | none => exact ⟨_, rfl⟩
  | some w =>
    by_cases hcap : cap < divCeil a.toNat w.bits * w.bits
    · exact ⟨_, if_pos hcap⟩
    · exact ⟨_, if_neg hcap⟩

theorem State.Inv.execGet_completes (h : s.Inv) (a : Word) : ∃ t, execGet a s = .next t := by
  rcases le_or_gt s.bitcount a.toNat with hout | hin
  · exact ⟨_, execGet_next.2 (.inl ⟨hout, rfl⟩)⟩
  · obtain ⟨v, hv, _, hdom, _⟩ := h.withBit hin fun _ _ => .next s
    exact ⟨_, execGet_next.2 (.inr ⟨hin, v, _, hv, wcGet_eq_some.2 ⟨hdom, rfl⟩, rfl⟩)⟩

/-- `SET` and `CLR` complete, as the codec has a value on its domain and keeps a word inside its item width (R48, R49). -/
theorem State.Inv.modifyBit_completes (h : s.Inv) {codec : Nat → Nat → Nat → Option Nat} (a : Word)
    (hcodec : ∀ {v p w : Nat}, wordCodecDomain v p w = true → v < 2 ^ w →
      ∃ v', codec v p w = some v' ∧ v' < 2 ^ w) :
    ∃ t, modifyBit codec a s = .next t := by
  rcases le_or_gt s.bitcount a.toNat with hout | hin
  · exact ⟨_, modifyBit_next.2 (.inl ⟨hout, rfl⟩)⟩
  · obtain ⟨v, hv, hlt, hdom, _⟩ := h.withBit hin fun _ _ => .next s
    obtain ⟨v', hv', hlt'⟩ := hcodec hdom hlt
    exact ⟨_, modifyBit_next.2 (.inr ⟨hin, v, v', hv, hv', (h.address hin).1, hlt', rfl⟩)⟩

theorem wcSet_completes {v p w : Nat} (hd : wordCodecDomain v p w = true) (hv : v < 2 ^ w) :
    ∃ v', wcSet v p w = some v' ∧ v' < 2 ^ w :=
  have hs := wcSet_eq_some.2 ⟨hd, rfl⟩
  ⟨_, hs, wcSet_lt hs hv⟩

theorem wcClear_completes {v p w : Nat} (hd : wordCodecDomain v p w = true) :
    ∃ v', wcClear v p w = some v' ∧ v' < 2 ^ w :=
  have hs := wcClear_eq_some.2 ⟨hd, rfl⟩
  ⟨_, hs, wcClear_lt hs⟩

/-- The resizer has a value on a legal store (R53). -/
theorem State.Inv.resize_completes (h : s.Inv) (w : Width) : ∃ ws, resize s.words s.bpi w = some ws :=
  resize_isSome w (wf_resizerDomain h.store)

theorem State.Inv.execChw_completes (h : s.Inv) (a : Word) : ∃ t, execChw a s = .next t := by
  cases hw : widthOperand a with
  | none => exact ⟨_, execChw_next.2 (.inl ⟨widthOperand_eq_none.1 hw, rfl⟩)⟩
  | some w =>
    have ha := widthOperand_eq_some.1 hw
    by_cases hsame : w = s.bpi
    · exact ⟨_, execChw_next.2 (.inr (.inl ⟨hsame ▸ ha, rfl⟩))⟩
    · obtain ⟨ws, hws⟩ := h.resize_completes w
      exact ⟨_, execChw_next.2 (.inr (.inr ⟨w, ws, ha, hsame, hws, rfl⟩))⟩

theorem execRdw_completes (a : Word) (s : State) : ∃ t, execRdw a s = .next t := by
  rcases le_or_gt s.words.length a.toNat with hout | hin
  · exact ⟨_, execRdw_next.2 (.inl ⟨hout, rfl⟩)⟩
  · exact ⟨_, execRdw_next.2 (.inr ⟨hin, _, List.getElem?_eq_getElem hin, rfl⟩)⟩

theorem execWrw_completes (a d : Word) (s : State) : ∃ t, execWrw a d s = .next t := by
  rcases le_or_gt s.words.length a.toNat with hout | hin
  · exact ⟨_, execWrw_next.2 (.inl ⟨hout, rfl⟩)⟩
  · rcases le_or_gt (2 ^ s.iw a.toNat) d.toNat with hbig | hfits
    · exact ⟨_, execWrw_next.2 (.inr ⟨hin, .inl ⟨hbig, rfl⟩⟩)⟩
    · exact ⟨_, execWrw_next.2 (.inr ⟨hin, .inr ⟨hfits, rfl⟩⟩)⟩

theorem State.Inv.execStrb_completes (h : s.Inv) : ∃ t, execStrb s = .next t := by
  obtain ⟨ws, hws⟩ := h.resize_completes .w8
  exact ⟨_, execStrb_next.2 ⟨ws, hws, rfl⟩⟩

/-- In a legal state every command ends with a next state (R60, R73). -/
theorem State.Inv.exec_completes (h : s.Inv) (i : Instr) : ∃ t, exec i s = .next t := by
  cases i with
  | init a d => exact construct_completes _ a d s
  | get a => exact h.execGet_completes a
  | set a => exact h.modifyBit_completes a wcSet_completes
  | clr a => exact h.modifyBit_completes a fun hd _ => wcClear_completes hd
  | chw a => exact h.execChw_completes a
  | rdw a => exact execRdw_completes a s
  | wrw a d => exact execWrw_completes a d s
  | tobin => exact ⟨_, exec_tobin s⟩
  | strb => exact h.execStrb_completes
  | rdn => exact ⟨_, exec_rdn s⟩
  | rdbpi => exact ⟨_, exec_rdbpi s⟩
  | rdlen => exact ⟨_, exec_rdlen s⟩

/-! ### The forms a response has (R40, R41) -/

/-- An error's response is of the form of every command. -/
theorem errorResponse_wellFormed {code : Byte} (hcode : code.toNat ≤ 5) :
    (errorResponse code).WellFormed i s where
  status := hcode
  error _ := ⟨rfl, rfl⟩
  payload hp := absurd rfl hp
  length _ _ := rfl
  noResult _ _ _ := rfl

/-- Success without result or payload is of the form of every command. -/
theorem okResponse_zero_wellFormed : (okResponse 0).WellFormed i s :=
  errorResponse_wellFormed (code := 0x00) (by decide)

/-- Success with a result is of the form of a command that returns one and exports nothing. -/
theorem okResponse_wellFormed {r : Word} (hexport : i ∉ [Instr.tobin, .strb])
    (hresult : ∀ a d : Word, i ∉ [Instr.init a d, .set a, .clr a, .chw a, .wrw a d]) :
    (okResponse r).WellFormed i s where
  status := Nat.zero_le 5
  error hst := absurd rfl hst
  payload hp := absurd rfl hp
  length hi := absurd hi hexport
  noResult a d hi := absurd hi (hresult a d)

/-- A payload with its length is of the form of the two exports, when the empty store gives the empty payload. -/
theorem exportResponse_wellFormed {p : List Byte} (hexport : i ∈ [Instr.tobin, .strb])
    (hempty : s.words = [] → p = []) :
    Response.WellFormed i s { st := 0x00, r := s.resultWord p.length, p := p } where
  status := Nat.zero_le 5
  error hst := absurd rfl hst
  payload hp := ⟨rfl, hexport, mt hempty hp⟩
  length _ hlt := resultWord_toNat hlt
  noResult a d hi := by
    rcases List.mem_pair.1 hexport with rfl | rfl <;> simp at hi

theorem binaryText_nil (bits : Nat) : binaryText bits [] = [] := rfl

/-- Every resize of the empty store is empty (R57). -/
theorem resize_nil {out : List Nat} {old new : Width} (h : resize [] old new = some out) : out = [] := by
  obtain ⟨_, ⟨_, rfl⟩ | ⟨_, rfl⟩ | ⟨_, rfl⟩⟩ := resize_eq_some.1 h <;> rfl

/-! ### Each command delivers one response -/

/-- What holds of the state `t` after the command `i` ran in `s`: one response of the command's form is delivered, and the port
is as it was. -/
def DeliversOne (i : Instr) (s t : State) : Prop :=
  ∃ r : Response, t.responses = s.responses ++ [r] ∧ r.WellFormed i s ∧ t.port = s.port

/-- Delivering from a state that differs from `s` in the store alone. -/
theorem deliversOne_deliver {u : State} {r : Response} (hres : u.responses = s.responses) (hport : u.port = s.port)
    (hr : r.WellFormed i s) : DeliversOne i s (u.deliver r) :=
  ⟨r, by rw [deliver_responses, hres], hr, hport⟩

theorem deliversOne_error {code : Byte} (hcode : code.toNat ≤ 5) : DeliversOne i s (s.deliver (errorResponse code)) :=
  deliversOne_deliver rfl rfl (errorResponse_wellFormed hcode)

theorem deliversOne_okZero {u : State} (hres : u.responses = s.responses) (hport : u.port = s.port) :
    DeliversOne i s (u.deliver (okResponse 0)) :=
  deliversOne_deliver hres hport okResponse_zero_wellFormed

theorem deliversOne_result {r : Word} (hexport : i ∉ [Instr.tobin, .strb])
    (hresult : ∀ a d : Word, i ∉ [Instr.init a d, .set a, .clr a, .chw a, .wrw a d]) :
    DeliversOne i s (s.deliver (okResponse r)) :=
  deliversOne_deliver rfl rfl (okResponse_wellFormed hexport hresult)

theorem modifyBit_deliversOne {codec : Nat → Nat → Nat → Option Nat} {a : Word}
    (h : modifyBit codec a s = .next t) : DeliversOne i s t := by
  rcases modifyBit_next.1 h with ⟨_, rfl⟩ | ⟨_, v, v', _, _, _, _, rfl⟩
  · exact deliversOne_error (by decide)
  · exact deliversOne_okZero rfl rfl

/-- Every command that ends with a next state delivers one response of its form, in any state (R40). -/
theorem exec_deliversOne (h : exec i s = .next t) : DeliversOne i s t := by
  cases i with
  | init a d =>
    rcases construct_next.1 h with ⟨_, rfl⟩ | ⟨w, _, ⟨_, rfl⟩ | ⟨_, rfl⟩⟩
    · exact deliversOne_error (by decide)
    · exact deliversOne_error (by decide)
    · exact deliversOne_okZero rfl rfl
  | get a =>
    rcases execGet_next.1 h with ⟨_, rfl⟩ | ⟨_, v, b, _, _, rfl⟩
    · exact deliversOne_error (by decide)
    · exact deliversOne_result (by simp) (by simp)
  | set a => exact modifyBit_deliversOne h
  | clr a => exact modifyBit_deliversOne h
  | chw a =>
    rcases execChw_next.1 h with ⟨_, rfl⟩ | ⟨_, rfl⟩ | ⟨w, ws, _, _, _, rfl⟩
    · exact deliversOne_error (by decide)
    · exact deliversOne_okZero rfl rfl
    · exact deliversOne_okZero rfl rfl
  | rdw a =>
    rcases execRdw_next.1 h with ⟨_, rfl⟩ | ⟨_, v, _, rfl⟩
    · exact deliversOne_error (by decide)
    · exact deliversOne_result (by simp) (by simp)
  | wrw a d =>
    rcases execWrw_next.1 h with ⟨_, rfl⟩ | ⟨_, ⟨_, rfl⟩ | ⟨_, rfl⟩⟩
    · exact deliversOne_error (by decide)
    · exact deliversOne_error (by decide)
    · exact deliversOne_okZero rfl rfl
  | tobin =>
    cases h
    refine deliversOne_deliver rfl rfl (exportResponse_wellFormed (by simp) fun hnil => ?_)
    rw [hnil, binaryText_nil]
  | strb =>
    obtain ⟨ws, hws, rfl⟩ := execStrb_next.1 h
    refine deliversOne_deliver rfl rfl (exportResponse_wellFormed (by simp) fun hnil => ?_)
    rw [hnil] at hws
    rw [resize_nil hws]
    rfl
  | rdn => cases h; exact deliversOne_result (by simp) (by simp)
  | rdbpi => cases h; exact deliversOne_result (by simp) (by simp)
  | rdlen => cases h; exact deliversOne_result (by simp) (by simp)

/-- Settles O15: a legal state makes the command complete, and a command that completes delivers one response. -/
theorem everyCommandDeliversOneResponse : Obligations.EveryCommandDeliversOneResponse := by
  intro i s hs
  obtain ⟨t, ht⟩ := hs.exec_completes i
  obtain ⟨r, hres, hform, hport⟩ := exec_deliversOne ht
  exact ⟨t, r, ht, hres, hform, hport⟩

end Sys2Proof.Machine

/-! ## The state elements (10_state.md)

Which commands write the width and the bit count (R11, R12); that the engine state `(words, bpi, N)` alone decides what a command
does (R10, R60); the status registers (R16); and the reset values (R19). -/

namespace Sys2Proof.Machine

variable {s t : State} {i : Instr}

/-! ### The writers of the width and the bit count -/

/-- Settles O21: of the four things a command can do, leaving the state and writing one word keep both; `INIT` and a repacking
`CHW` are what is left. -/
theorem onlyInitAndChwWriteWidthAndCount : Obligations.OnlyInitAndChwWriteWidthAndCount := by
  intro i s t h hchange
  obtain ⟨u, r, rfl, rfl | ⟨_, ⟨k, v, _, _, _, rfl⟩ | ⟨a, w, ws, rfl, ha, hne, _, _⟩ | ⟨a, d, w, rfl, _⟩⟩⟩ :=
    exec_next h
  · simp at hchange
  · simp at hchange
  · exact .inr ⟨a, rfl, fun hsame => hne (Width.bits_inj (ha.symm.trans hsame))⟩
  · exact .inl ⟨a, d, rfl⟩

/-! ### The engine state alone decides the outcome

Two states that agree on `(words, bpi, N)` differ in the host's side only, so it is enough to see that a command takes any
other port and record along unread. -/

/-- The engine state of `s` with another port and another record of deliveries. -/
def State.withHost (s : State) (port : List PortEvent) (responses : List Response) : State :=
  { s with port := port, responses := responses }

theorem eq_withHost {s' : State} (hwords : s'.words = s.words) (hbpi : s'.bpi = s.bpi)
    (hcount : s'.bitcount = s.bitcount) : s' = s.withHost s'.port s'.responses := by
  rw [State.withHost, ← hwords, ← hbpi, ← hcount]

variable {p : List PortEvent} {rs : List Response}

theorem modifyBit_withHost {codec : Nat → Nat → Nat → Option Nat} {a : Word} (h : modifyBit codec a s = .next t) :
    ∃ r, t.responses = s.responses ++ [r] ∧
      modifyBit codec a (s.withHost p rs) = .next (t.withHost p (rs ++ [r])) := by
  rcases modifyBit_next.1 h with ⟨hout, rfl⟩ | ⟨hin, v, v', hv, hv', hk, hlt, rfl⟩
  · exact ⟨_, rfl, modifyBit_next.2 (.inl ⟨hout, rfl⟩)⟩
  · exact ⟨_, rfl, modifyBit_next.2 (.inr ⟨hin, v, v', hv, hv', hk, hlt, rfl⟩)⟩

/-- A command that completes also completes with any other port and record: it delivers the same response and reaches the same
engine state (R60). Every condition in its inversion lemma speaks of `(words, bpi, N)` alone. -/
theorem exec_withHost (h : exec i s = .next t) :
    ∃ r, t.responses = s.responses ++ [r] ∧ exec i (s.withHost p rs) = .next (t.withHost p (rs ++ [r])) := by
  cases i with
  | init a d =>
    rcases construct_next.1 h with ⟨hbad, rfl⟩ | ⟨w, hd, ⟨hcap, rfl⟩ | ⟨hcap, rfl⟩⟩
    · exact ⟨_, rfl, construct_next.2 (.inl ⟨hbad, rfl⟩)⟩
    · exact ⟨_, rfl, construct_next.2 (.inr ⟨w, hd, .inl ⟨hcap, rfl⟩⟩)⟩
    · exact ⟨_, rfl, construct_next.2 (.inr ⟨w, hd, .inr ⟨hcap, rfl⟩⟩)⟩
  | get a =>
    rcases execGet_next.1 h with ⟨hout, rfl⟩ | ⟨hin, v, b, hv, hb, rfl⟩
    · exact ⟨_, rfl, execGet_next.2 (.inl ⟨hout, rfl⟩)⟩
    · exact ⟨_, rfl, execGet_next.2 (.inr ⟨hin, v, b, hv, hb, rfl⟩)⟩
  | set a => exact modifyBit_withHost h
  | clr a => exact modifyBit_withHost h
  | chw a =>
    rcases execChw_next.1 h with ⟨hbad, rfl⟩ | ⟨hsame, rfl⟩ | ⟨w, ws, ha, hne, hws, rfl⟩
    · exact ⟨_, rfl, execChw_next.2 (.inl ⟨hbad, rfl⟩)⟩
    · exact ⟨_, rfl, execChw_next.2 (.inr (.inl ⟨hsame, rfl⟩))⟩
    · exact ⟨_, rfl, execChw_next.2 (.inr (.inr ⟨w, ws, ha, hne, hws, rfl⟩))⟩
  | rdw a =>
    rcases execRdw_next.1 h with ⟨hout, rfl⟩ | ⟨hin, v, hv, rfl⟩
    · exact ⟨_, rfl, execRdw_next.2 (.inl ⟨hout, rfl⟩)⟩
    · exact ⟨_, rfl, execRdw_next.2 (.inr ⟨hin, v, hv, rfl⟩)⟩
  | wrw a d =>
    rcases execWrw_next.1 h with ⟨hout, rfl⟩ | ⟨hin, ⟨hbig, rfl⟩ | ⟨hfits, rfl⟩⟩
    · exact ⟨_, rfl, execWrw_next.2 (.inl ⟨hout, rfl⟩)⟩
    · exact ⟨_, rfl, execWrw_next.2 (.inr ⟨hin, .inl ⟨hbig, rfl⟩⟩)⟩
    · exact ⟨_, rfl, execWrw_next.2 (.inr ⟨hin, .inr ⟨hfits, rfl⟩⟩)⟩
  | tobin => cases h; exact ⟨_, rfl, exec_tobin _⟩
  | strb =>
    obtain ⟨ws, hws, rfl⟩ := execStrb_next.1 h
    exact ⟨_, rfl, execStrb_next.2 ⟨ws, hws, rfl⟩⟩
  | rdn => cases h; exact ⟨_, rfl, exec_rdn _⟩
  | rdbpi => cases h; exact ⟨_, rfl, exec_rdbpi _⟩
  | rdlen => cases h; exact ⟨_, rfl, exec_rdlen _⟩

/-- Settles O22: the second state is the first with the second's port and record. -/
theorem outcomeDependsOnTheEngineStateAlone : Obligations.OutcomeDependsOnTheEngineStateAlone := by
  intro i s s' t hwords hbpi hcount h
  obtain ⟨r, hres, h'⟩ := exec_withHost (p := s'.port) (rs := s'.responses) h
  rw [← eq_withHost hwords hbpi hcount] at h'
  exact ⟨_, r, h', rfl, rfl, rfl, hres, rfl⟩

/-! ### The status registers -/

/-- The word count of a legal state is `ceil(N / bpi)` (R13). -/
theorem State.Inv.length_eq (h : s.Inv) : s.words.length = divCeil s.bitcount s.bpi.bits :=
  (memory_wf_iff.1 h.store).1

/-- The bit count of a legal state is within the capacity (R12, R73). -/
theorem State.Inv.bitcount_le (h : s.Inv) : s.bitcount ≤ Config.capBits :=
  calc s.bitcount ≤ s.words.length * s.bpi.bits := h.length_eq ▸ le_divCeil_mul s.bpi.bits_pos
    _ ≤ Config.capBits := h.capacity

/-- So is the word count, as every word takes at least one bit of the capacity. -/
theorem State.Inv.length_le (h : s.Inv) : s.words.length ≤ Config.capBits :=
  (Nat.le_mul_of_pos_right _ s.bpi.bits_pos).trans h.capacity

/-- What is within the capacity fits a result (R3, R4). -/
theorem resultWord_toNat_of_le_capBits {n : Nat} (h : n ≤ Config.capBits) : (s.resultWord n).toNat = n :=
  resultWord_toNat (by have := Config.capBits_le; omega)

/-- Settles O41: each view of a legal state is within the capacity, so the result word holds it. -/
theorem statusReadsReturnTheViews : Obligations.StatusReadsReturnTheViews := by
  intro s hs
  have hn := resultWord_toNat_of_le_capBits (s := s) hs.bitcount_le
  have hbpi := resultWord_toNat_of_le_capBits (s := s) (s.bpi.bits_facts.2.1.trans Config.capBits_ge)
  have hlen := resultWord_toNat_of_le_capBits (s := s) hs.length_le
  exact ⟨⟨_, hn, exec_rdn s⟩, ⟨_, hbpi, exec_rdbpi s⟩, ⟨_, hlen, hlen.trans hs.length_eq, exec_rdlen s⟩⟩

/-! ### Reset -/

/-- `INIT 0, 8` always fits the capacity and leaves the empty store (R19, R61). -/
theorem exec_init_zero_eight (s : State) :
    exec (.init 0 8) s =
      .next (({ s with words := [], bpi := .w8, bitcount := 0 } : State).deliver (okResponse 0)) := by
  have hzero : divCeil (0 : Word).toNat Width.w8.bits = 0 := divCeil_zero Width.w8.bits_pos
  rw [exec_init, construct_next]
  refine .inr ⟨.w8, rfl, .inr ⟨?_, ?_⟩⟩
  · rw [hzero, Nat.zero_mul]
    exact Nat.zero_le _
  · rw [hzero]
    rfl

/-- Settles O10: the reset values are read off the definition; `INIT 0, 8` makes the same store. -/
theorem resetLeavesTheEmptyArray : Obligations.ResetLeavesTheEmptyArray :=
  ⟨rfl, rfl, rfl, rfl, rfl, rfl, exec_init_zero_eight⟩

end Sys2Proof.Machine

/-! ## The two address spaces (20_memory.md)

What was delivered stays delivered (R26, R89); the read commands write nothing (R26); the effective address of a bit (R21);
and a word write as the bit space sees it (R20, R22). -/

namespace Sys2Proof.Machine

variable {s t : State} {i : Instr}

/-! ### The delivered responses -/

/-- Settles O16: of the four things a step can do, waiting and reset deliver nothing, and a decoded command and an undefined
opcode deliver one response each. -/
theorem deliveredResponsesNeverChange : Obligations.DeliveredResponsesNeverChange := by
  intro s t h
  rcases step_next h with ⟨hp, rfl⟩ | ⟨rest, hp, rfl⟩ | ⟨cw, rest, i, hp, _, hexec⟩ | ⟨cw, rest, e, hp, _, rfl⟩
  · exact ⟨[], by simp, by simp [hp]⟩
  · exact ⟨[], by simp, by simp [hp]⟩
  · obtain ⟨r, hres, _⟩ := exec_deliversOne hexec
    exact ⟨[r], hres, by simp [hp]⟩
  · exact ⟨[errorResponse 0x05], rfl, by simp [hp]⟩

/-! ### The read commands -/

/-- A read command only delivers a response, whether it succeeds or not (R26). -/
theorem exec_read_next {a : Word} (hread : i ∈ [Instr.get a, .rdw a, .tobin, .strb, .rdn, .rdbpi, .rdlen])
    (h : exec i s = .next t) : ∃ r, t = s.deliver r := by
  simp only [List.mem_cons, List.not_mem_nil, or_false] at hread
  rcases hread with rfl | rfl | rfl | rfl | rfl | rfl | rfl
  · rcases execGet_next.1 h with ⟨_, ht⟩ | ⟨_, v, b, _, _, ht⟩ <;> exact ⟨_, ht⟩
  · rcases execRdw_next.1 h with ⟨_, ht⟩ | ⟨_, v, _, ht⟩ <;> exact ⟨_, ht⟩
  · cases h; exact ⟨_, rfl⟩
  · obtain ⟨ws, _, ht⟩ := execStrb_next.1 h
    exact ⟨_, ht⟩
  all_goals cases h; exact ⟨_, rfl⟩

/-- A command that only delivers a response delivers it again when issued again: the delivery is on the host's side, which no
command reads (R10, R26). -/
theorem exec_repeat_of_deliver {r : Response} (h : exec i s = .next (s.deliver r)) :
    exec i (s.deliver r) = .next ((s.deliver r).deliver r) := by
  obtain ⟨r', hres, hagain⟩ := exec_withHost (p := s.port) (rs := s.responses ++ [r]) h
  obtain rfl : r = r' := by simpa using hres
  exact hagain

/-- Settles O17: a read only delivers, and what only delivers repeats. -/
theorem readCommandsChangeNothingAndRepeat : Obligations.ReadCommandsChangeNothingAndRepeat := by
  intro a s t i hread h
  obtain ⟨r, rfl⟩ := exec_read_next hread h
  exact ⟨r, rfl, exec_repeat_of_deliver h⟩

/-! ### The effective address -/

/-- Settles O24: the three equations are the definition of the address (R21), the two bounds are those of a legal state. -/
theorem effectiveAddressIsInsideTheStore : Obligations.EffectiveAddressIsInsideTheStore := by
  intro s i hs hi
  obtain ⟨hword, hposition⟩ := hs.address hi
  exact ⟨rfl, rfl, rfl, hword, hposition⟩

/-! ### A word write in the bit space -/

/-- A bit in range is the bit of its word at its position (R22). -/
theorem bitAt_of_lt {j : Nat} (hj : j < s.bitcount) :
    s.bitAt j = (s.wordAt (j / s.bpi.bits)).map fun v =>
      v.testBit (s.iw (j / s.bpi.bits) - 1 - j % s.bpi.bits) := if_pos hj

/-- Writing word `k` of the store: the bits of that word are those of `v`, all others are as before (R20, R22). -/
theorem setWord_bitAt {k v j : Nat} (hk : k < s.words.length) (hj : j < s.bitcount) :
    (s.setWord k v).bitAt j =
      if j / s.bpi.bits = k then some (v.testBit (s.iw k - 1 - j % s.bpi.bits)) else s.bitAt j := by
  rw [bitAt_of_lt (s := s.setWord k v) hj, bitAt_of_lt hj, setWord_wordAt]
  simp only [setWord_bpi, setWord_iw]
  by_cases hword : j / s.bpi.bits = k
  · simp [hword, hk]
  · simp [hword, Ne.symm hword]

/-- Settles O38: with the index and the value in bounds `WRW` takes its last case, one word write and a delivery. -/
theorem wordWriteIsSeenInTheBitSpace : Obligations.WordWriteIsSeenInTheBitSpace := by
  intro a d s t _ hk hv h j hj
  rcases execWrw_next.1 h with ⟨hout, _⟩ | ⟨_, ⟨hbig, _⟩ | ⟨_, rfl⟩⟩
  · exact absurd hk hout.not_gt
  · exact absurd hv hbig.not_gt
  · rw [deliver_bitAt, setWord_bitAt hk hj]

end Sys2Proof.Machine

/-! ## Encoding (30_encoding.md)

Which words decode to which command, and what an encoding carries (R34 to R39); undefined opcodes at a step, and the status
codes of the commands (R74, R79); the loads of the assembler and what running their expansion does (R44). -/

namespace Sys2Proof

open Laws.OpcodeByte (fields)

variable {cw : CommandWord} {i : Instr}

/-! ### The decoder by fields

The opcode map `fields` is the one table that both directions are read from. -/

theorem encode_eq_commandWord (i : Instr) :
    encode i = commandWord (fields i).1 (fields i).2.1 (fields i).2.2 := by
  cases i <;> rfl

/-- The three fields of an encoding are those of the opcode map (R34, R37). -/
theorem encode_fields (i : Instr) :
    CommandWord.op (encode i) = (fields i).1 ∧ CommandWord.a (encode i) = (fields i).2.1 ∧
      CommandWord.d (encode i) = (fields i).2.2 := by
  rw [encode_eq_commandWord]
  exact ⟨commandWord_op _ _ _, commandWord_a _ _ _, commandWord_d _ _ _⟩

/-- The opcode map holds zero in every field a format does not read (R39). -/
theorem fields_unread (i : Instr) :
    (i.format = .z → (fields i).2.1 = 0) ∧ (i.format ≠ .ad → (fields i).2.2 = 0) := by
  cases i <;> simp [Instr.format, fields]

/-- What a word that decodes holds: the command's opcode, and its operands in the fields its format reads. -/
theorem fields_of_decode (h : decode cw = .ok i) :
    CommandWord.op cw = (fields i).1 ∧ (i.format ≠ .z → CommandWord.a cw = (fields i).2.1) ∧
      (i.format = .ad → CommandWord.d cw = (fields i).2.2) := by
  unfold decode at h
  split at h <;> cases h
  case h_1 hop | h_7 hop => exact ⟨BitVec.eq_of_toNat_eq hop, fun _ => rfl, fun _ => rfl⟩
  case h_2 hop | h_3 hop | h_4 hop | h_5 hop | h_6 hop => exact ⟨BitVec.eq_of_toNat_eq hop, fun _ => rfl, nofun⟩
  all_goals exact ⟨BitVec.eq_of_toNat_eq ‹_›, fun hz => absurd rfl hz, nofun⟩

/-- Nothing else is needed to decode: the fields a format does not read are free (R39). -/
theorem decode_of_fields (hop : CommandWord.op cw = (fields i).1)
    (ha : i.format ≠ .z → CommandWord.a cw = (fields i).2.1)
    (hd : i.format = .ad → CommandWord.d cw = (fields i).2.2) : decode cw = .ok i := by
  cases i with
  | init a d | wrw a d => simp [decode, hop, fields, ha nofun, hd rfl]
  | get a | set a | clr a | chw a | rdw a => simp [decode, hop, fields, ha nofun]
  | tobin | strb | rdn | rdbpi | rdlen => simp [decode, hop, fields]

/-- The decoder reads a command back from its encoding. -/
theorem decode_encode (i : Instr) : decode (encode i) = .ok i :=
  have ⟨hop, ha, hd⟩ := encode_fields i
  decode_of_fields hop (fun _ => ha) (fun _ => hd)

/-- Settles O1: an encoding has the fields of the opcode map, and they are all the decoder reads. -/
theorem decodeOfEncodeIsTheCommand : Obligations.DecodeOfEncodeIsTheCommand := decode_encode

/-- Settles O2: a field that is read holds what the opcode map holds there, and in a field that is not read the map holds
zero. -/
theorem encodeOfDecodeClearsUnreadFields : Obligations.EncodeOfDecodeClearsUnreadFields := by
  intro cw i h
  obtain ⟨hop, ha, hd⟩ := fields_of_decode h
  obtain ⟨ha0, hd0⟩ := fields_unread i
  have hA : (if i.format = .z then 0 else CommandWord.a cw) = (fields i).2.1 := by
    split_ifs with hz
    · exact (ha0 hz).symm
    · exact ha hz
  have hD : (if i.format = .ad then CommandWord.d cw else 0) = (fields i).2.2 := by
    split_ifs with had
    · exact hd had
    · exact (hd0 had).symm
  rw [encode_eq_commandWord, hop, hA, hD]

/-- Settles O3: a word that agrees in the fields read meets the conditions under which the decoder answers the same command;
the encoder takes the unread fields from the opcode map. -/
theorem unreadFieldsAreIgnoredAndEmittedAsZero : Obligations.UnreadFieldsAreIgnoredAndEmittedAsZero := by
  refine ⟨fun cw cw' i h hop' ha' hd' => ?_, fun i => ?_⟩
  · obtain ⟨hop, ha, hd⟩ := fields_of_decode h
    exact decode_of_fields (hop'.trans hop) (fun hz => (ha' hz).trans (ha hz)) (fun had => (hd' had).trans (hd had))
  · obtain ⟨_, ha, hd⟩ := encode_fields i
    obtain ⟨ha0, hd0⟩ := fields_unread i
    exact ⟨fun hz => ha.trans (ha0 hz), fun had => hd.trans (hd0 had)⟩

/-! ### Defined and undefined opcodes -/

/-- The twelve opcodes of the map decode, and every other is the error that names it (R37, R38). -/
theorem decode_cases (cw : CommandWord) :
    ((1 ≤ (CommandWord.op cw).toNat ∧ (CommandWord.op cw).toNat ≤ 12) ∧ ∃ i, decode cw = .ok i) ∨
      (((CommandWord.op cw).toNat = 0 ∨ 13 ≤ (CommandWord.op cw).toNat) ∧
        decode cw = .error (.undefinedOpcode (CommandWord.op cw))) := by
  unfold decode
  split
  case h_13 =>
    refine .inr ⟨?_, rfl⟩
    simp only [imp_false] at *
    omega
  all_goals exact .inl ⟨by omega, _, rfl⟩

theorem decode_of_undefined (h : (CommandWord.op cw).toNat = 0 ∨ 13 ≤ (CommandWord.op cw).toNat) :
    decode cw = .error (.undefinedOpcode (CommandWord.op cw)) := by
  rcases decode_cases cw with ⟨hop, _⟩ | ⟨_, herr⟩
  · omega
  · exact herr

/-- Settles O4: the two ranges of opcodes exclude each other, so each leaves one case of the decoder. -/
theorem exactlyTwelveOpcodesDecode : Obligations.ExactlyTwelveOpcodesDecode := by
  refine fun cw => ⟨fun hdef => ?_, decode_of_undefined⟩
  rcases decode_cases cw with ⟨_, hi⟩ | ⟨hop, _⟩
  · exact hi
  · omega

/-- Settles O5: each word is a literal, so the decoder runs on it. -/
theorem listedWordsDecodeAsListed : Obligations.ListedWordsDecodeAsListed := by
  unfold Obligations.ListedWordsDecodeAsListed
  decide

/-! ### The status codes of a command -/

/-- The status codes a command can end with (R41, R74). -/
def Instr.statusCodes : Instr → List Byte
  | .init _ _ => [0x00, 0x02, 0x04]
  | .get _ | .set _ | .clr _ | .rdw _ => [0x00, 0x01]
  | .chw _ => [0x00, 0x02]
  | .wrw _ _ => [0x00, 0x01, 0x03]
  | .tobin | .strb | .rdn | .rdbpi | .rdlen => [0x00]

theorem illegalCommand_notMem_statusCodes (i : Instr) : (0x05 : Byte) ∉ i.statusCodes := by
  cases i <;> simp [Instr.statusCodes]

end Sys2Proof

namespace Sys2Proof.Machine

variable {s t : State} {i : Instr}

theorem modifyBit_status {codec : Nat → Nat → Nat → Option Nat} {a : Word} (h : modifyBit codec a s = .next t) :
    ∃ r, t.responses = s.responses ++ [r] ∧ r.st ∈ ([0x00, 0x01] : List Byte) := by
  rcases modifyBit_next.1 h with ⟨_, rfl⟩ | ⟨_, v, v', _, _, _, _, rfl⟩
  · exact ⟨errorResponse 0x01, rfl, .tail _ (.head _)⟩
  · exact ⟨okResponse 0, rfl, .head _⟩

/-- A command that completes delivers a response with one of its own status codes. -/
theorem exec_status (h : exec i s = .next t) :
    ∃ r, t.responses = s.responses ++ [r] ∧ r.st ∈ i.statusCodes := by
  cases i with
  | init a d =>
    rcases construct_next.1 h with ⟨_, rfl⟩ | ⟨w, _, ⟨_, rfl⟩ | ⟨_, rfl⟩⟩
    · exact ⟨errorResponse 0x02, rfl, .tail _ (.head _)⟩
    · exact ⟨errorResponse 0x04, rfl, .tail _ (.tail _ (.head _))⟩
    · exact ⟨okResponse 0, rfl, .head _⟩
  | get a =>
    rcases execGet_next.1 h with ⟨_, rfl⟩ | ⟨_, v, b, _, _, rfl⟩
    · exact ⟨errorResponse 0x01, rfl, .tail _ (.head _)⟩
    · exact ⟨okResponse _, rfl, .head _⟩
  | set a => exact modifyBit_status h
  | clr a => exact modifyBit_status h
  | chw a =>
    rcases execChw_next.1 h with ⟨_, rfl⟩ | ⟨_, rfl⟩ | ⟨w, ws, _, _, _, rfl⟩
    · exact ⟨errorResponse 0x02, rfl, .tail _ (.head _)⟩
    · exact ⟨okResponse 0, rfl, .head _⟩
    · exact ⟨okResponse 0, rfl, .head _⟩
  | rdw a =>
    rcases execRdw_next.1 h with ⟨_, rfl⟩ | ⟨_, v, _, rfl⟩
    · exact ⟨errorResponse 0x01, rfl, .tail _ (.head _)⟩
    · exact ⟨okResponse _, rfl, .head _⟩
  | wrw a d =>
    rcases execWrw_next.1 h with ⟨_, rfl⟩ | ⟨_, ⟨_, rfl⟩ | ⟨_, rfl⟩⟩
    · exact ⟨errorResponse 0x01, rfl, .tail _ (.head _)⟩
    · exact ⟨errorResponse 0x03, rfl, .tail _ (.tail _ (.head _))⟩
    · exact ⟨okResponse 0, rfl, .head _⟩
  | strb =>
    obtain ⟨ws, _, rfl⟩ := execStrb_next.1 h
    exact ⟨_, rfl, .head _⟩
  | tobin | rdn | rdbpi | rdlen => cases h; exact ⟨_, rfl, .head _⟩

/-- The converse of `step_next` for a word that does not decode (R79). -/
theorem step_of_decode_error {cw : CommandWord} {rest : List PortEvent} {e : DecodeError}
    (hp : s.port = .command cw :: rest) (hd : decode cw = .error e) :
    step s = .next (s.popPort.deliver (errorResponse 0x05)) := by
  simp only [step, hp, hd, raise_eq, CommandError.code]

/-- Settles O7: an undefined opcode is a decode error, which the step answers with 0x05; a command ends with a status code of
its own row, and no row holds 0x05. -/
theorem undefinedOpcodeRaisesIllegalCommand : Obligations.UndefinedOpcodeRaisesIllegalCommand := by
  refine ⟨fun s cw rest hp hop => ?_, fun i s t r h hres hst => ?_⟩
  · rw [step_of_decode_error hp (decode_of_undefined hop), popPort_of_port hp]
  · obtain ⟨r', hres', hmem⟩ := exec_status h
    obtain rfl : r = r' := by simpa using hres.symm.trans hres'
    exact illegalCommand_notMem_statusCodes i (hst ▸ hmem)

/-! ### The expansion of a load -/

variable {w : Width} {n b : Nat} {ws : List Nat}

/-- The assembler's checks of a load are R44's conditions. -/
theorem loadFits_iff_legalLoad : loadFits n b ws = true ↔ ∃ w, LegalLoad w n b ws := by
  rw [loadFits_iff]
  refine exists_congr fun w => ⟨fun ⟨hb, hn, hlen, hfits⟩ => ?_, fun h => ?_⟩
  · exact ⟨hb, hn, hb ▸ hlen.symm, by simpa using wordsFit_iff.1 hfits⟩
  · exact ⟨h.width, h.count, h.width ▸ h.length.symm, wordsFit_iff.2 (by simpa using h.fits)⟩

theorem expandLoad_eq_loadCommands (n b : Nat) (ws : List Nat) : expandLoad n b ws = loadCommands n b ws := by
  simp only [expandLoad, loadCommands, storeWords_eq, Nat.zero_add]

/-- `LOADW` is `LOADWN` with the bit count of full words (R44). -/
theorem expand_loadw (b : Nat) (ws : List Nat) :
    (AsmLine.loadw b ws).expand = (AsmLine.loadwn (b * ws.length) b ws).expand := rfl

theorem expand_loadwn (n b : Nat) (ws : List Nat) :
    (AsmLine.loadwn n b ws).expand = if loadFits n b ws = true then some (expandLoad n b ws) else none := rfl

/-- A load expands exactly when it is legal for some width, and to its commands. -/
theorem expand_loadwn_eq_some {is : List Instr} :
    (AsmLine.loadwn n b ws).expand = some is ↔ (∃ w, LegalLoad w n b ws) ∧ is = loadCommands n b ws := by
  rw [expand_loadwn, Option.ite_none_right_eq_some, Option.some.injEq, loadFits_iff_legalLoad,
    expandLoad_eq_loadCommands, eq_comm (a := is)]

theorem LegalLoad.expand_loadwn (h : LegalLoad w n b ws) :
    (AsmLine.loadwn n b ws).expand = some (loadCommands n b ws) := expand_loadwn_eq_some.2 ⟨⟨w, h⟩, rfl⟩

theorem expand_loadwn_eq_none : (AsmLine.loadwn n b ws).expand = none ↔ ∀ w, ¬ LegalLoad w n b ws := by
  simp only [Option.eq_none_iff_forall_ne_some, ne_eq, expand_loadwn_eq_some]
  exact ⟨fun h w hw => h _ ⟨⟨w, hw⟩, rfl⟩, fun h _ ⟨⟨w, hw⟩, _⟩ => h w hw⟩

/-- Full words of a width in `WIDTHS` are a legal load of that many bits. -/
theorem legalLoad_of_full (hn : w.bits * ws.length < 2 ^ 64) (hws : ∀ v ∈ ws, v < 2 ^ w.bits) :
    LegalLoad w (w.bits * ws.length) w.bits ws := by
  rw [Nat.mul_comm] at hn ⊢
  obtain ⟨hlen, hfits⟩ := memory_wf_iff.1 (wf_full hws)
  exact ⟨rfl, hn, hlen, hfits⟩

/-- A word that does not fit its item width makes the load illegal for every width. -/
theorem not_legalLoad_of_word {k v : Nat} (hb : b = w.bits) (hk : ws[k]? = some v)
    (hv : 2 ^ itemWidth ws.length w n k ≤ v) (w' : Width) : ¬ LegalLoad w' n b ws := by
  intro h
  obtain rfl : w = w' := Width.bits_inj (hb.symm.trans h.width)
  exact (h.fits k v hk).not_ge hv

/-- Settles O48: a load expands exactly when it is legal, full words are a legal load, and each kind of ill-formed load breaks
one condition of R44. -/
theorem assemblerExpandsLegalLoadsAndRefusesOthers : Obligations.AssemblerExpandsLegalLoadsAndRefusesOthers := by
  simp only [Obligations.AssemblerExpandsLegalLoadsAndRefusesOthers, expand_loadw, expand_loadwn_eq_some,
    expand_loadwn_eq_none, and_true]
  refine ⟨fun w n b ws h => ⟨w, h⟩, ?_, fun n b ws => ⟨?_, ?_, ?_, ?_, ?_⟩⟩
  · rintro w _ ws rfl hn hws
    exact ⟨w, legalLoad_of_full hn hws⟩
  · exact fun hwidth => ⟨fun w h => hwidth w h.width, fun w h => hwidth w h.width⟩
  · exact fun hn w h => h.count.not_ge hn
  · exact fun hn w h => h.count.not_ge hn
  · exact fun hlen w h => hlen h.length.symm
  · exact fun w k v hb hk => ⟨not_legalLoad_of_word hb hk, not_legalLoad_of_word hb hk⟩

/-! ### Running the expansion of a load -/

theorem toNat_ofNat_of_lt {k : Nat} (h : k < 2 ^ 64) : (BitVec.ofNat 64 k).toNat = k :=
  (BitVec.toNat_ofNat k 64).trans (Nat.mod_eq_of_lt h)

/-- The operands of `WRW k, v` hold the index and the value of a word of a legal load: both are below `2^64` (R3). -/
theorem LegalLoad.operands_lt (h : LegalLoad w n b ws) {k v : Nat} (hk : ws[k]? = some v) :
    k < 2 ^ 64 ∧ v < 2 ^ 64 := by
  obtain ⟨rfl, hn, hlen, hfits⟩ := h
  obtain ⟨hklen, _⟩ := List.getElem?_eq_some_iff.1 hk
  have hle : divCeil n w.bits ≤ n := (divCeil_le_iff w.bits_pos).2 (Nat.le_mul_of_pos_right n w.bits_pos)
  have hwidth := (itemWidth_bounds hlen hklen).2.trans w.bits_facts.2.1
  exact ⟨by omega, (hfits k v hk).trans_le (Nat.pow_le_pow_right (by omega) hwidth)⟩

/-- `INIT` of a legal load that fits the capacity leaves the zero store of its size (R61). -/
theorem LegalLoad.exec_init (h : LegalLoad w n b ws) (hcap : divCeil n b * b ≤ Config.capBits)
    (vs : List Nat) (u : Width) (m : Nat) (p : List PortEvent) (rs : List Response) :
    exec (.init (BitVec.ofNat 64 n) (BitVec.ofNat 64 b)) ⟨vs, u, m, p, rs⟩ =
      .next ⟨List.replicate ws.length 0, w, n, p, rs ++ [okResponse 0]⟩ := by
  obtain ⟨rfl, hn, hlen, _⟩ := h
  have hbits := w.bits_facts.2.1
  rw [Machine.exec_init, construct_next, toNat_ofNat_of_lt hn, toNat_ofNat_of_lt (by omega : w.bits < 2 ^ 64), hlen]
  exact .inr ⟨w, rfl, .inr ⟨hcap, rfl⟩⟩

/-- `WRW` of the next word of a legal load, where the words `done` are in place and zeros behind them, puts it in its place
(R67). -/
theorem LegalLoad.exec_wrw {done todo : List Nat} {v : Nat} (h : LegalLoad w n b (done ++ v :: todo))
    (p : List PortEvent) (rs : List Response) :
    exec (.wrw (BitVec.ofNat 64 done.length) (BitVec.ofNat 64 v))
        ⟨done ++ List.replicate (todo.length + 1) 0, w, n, p, rs⟩ =
      .next ⟨(done ++ [v]) ++ List.replicate todo.length 0, w, n, p, rs ++ [okResponse 0]⟩ := by
  have hget : (done ++ v :: todo)[done.length]? = some v := by simp
  have hfits := h.fits _ v hget
  obtain ⟨hk, hv⟩ := h.operands_lt hget
  rw [Machine.exec_wrw, execWrw_next, toNat_ofNat_of_lt hk, toNat_ofNat_of_lt hv]
  refine .inr ⟨by simp, .inr ⟨by simpa [State.iw] using hfits, ?_⟩⟩
  simp [State.setWord, State.deliver, List.replicate_succ]

/-- The command words of `is` as the host presents them. -/
def commandEvents (is : List Instr) : List PortEvent := is.map fun i => .command (encode i)

/-- A run of presented commands begins with the first of them. -/
theorem run_commandEvents_cons {is : List Instr} {rest : List PortEvent}
    (hp : s.port = commandEvents (i :: is) ++ rest)
    (h : exec i { s with port := commandEvents is ++ rest } = .next t) :
    Host.Core.run Sys2Proof.core (i :: is).length s = Host.Core.run Sys2Proof.core is.length t := by
  refine run_succ_of_step ?_
  rw [step_of_decode hp (decode_encode i), popPort_of_port hp]
  exact h

/-- The `WRW`s of a load, run from the words `done` already in place and zeros behind them, put each word of `todo` in its place
and answer OK each time (R44). -/
theorem LegalLoad.run_storeWords {rest : List PortEvent} :
    ∀ (todo done : List Nat) (rs : List Response), LegalLoad w n b (done ++ todo) →
      Host.Core.run Sys2Proof.core (storeWords done.length todo).length
          ⟨done ++ List.replicate todo.length 0, w, n, commandEvents (storeWords done.length todo) ++ rest, rs⟩ =
        .next ⟨done ++ todo, w, n, rest,
          rs ++ List.replicate (storeWords done.length todo).length (okResponse 0)⟩
  | [], done, rs, _ => by simp [storeWords, commandEvents, Host.Core.run]
  | v :: todo, done, rs, h => by
    have ih := LegalLoad.run_storeWords (rest := rest) todo (done ++ [v]) (rs ++ [okResponse 0])
      (by rwa [← List.append_cons])
    rw [List.length_append, List.length_singleton] at ih
    rw [storeWords, run_commandEvents_cons rfl (h.exec_wrw _ _), ih, ← List.append_cons, List.length_cons,
      List.replicate_succ, ← List.append_cons]

/-- The whole expansion of a legal load that fits the capacity fills the store with its words (R44). -/
theorem LegalLoad.run_loadCommands {rest : List PortEvent} (h : LegalLoad w n b ws)
    (hcap : divCeil n b * b ≤ Config.capBits) (hp : s.port = commandEvents (loadCommands n b ws) ++ rest) :
    Host.Core.run Sys2Proof.core (loadCommands n b ws).length s =
      .next ⟨ws, w, n, rest, s.responses ++ List.replicate (loadCommands n b ws).length (okResponse 0)⟩ := by
  rw [← expandLoad_eq_loadCommands, expandLoad] at hp ⊢
  rw [run_commandEvents_cons hp (h.exec_init hcap _ _ _ _ _), List.length_cons, List.replicate_succ,
    List.append_cons _ _ (List.replicate _ _)]
  exact h.run_storeWords ws [] _

/-- Settles O47: a load expands exactly when it is legal, and to its commands; both kinds of load run alike, as `LOADW` is
`LOADWN` with the inferred bit count. -/
theorem loadExpansionFillsTheStore : Obligations.LoadExpansionFillsTheStore := by
  refine ⟨fun w n b ws => ⟨fun h => ⟨_, h.expand_loadwn⟩, fun h => ⟨_, h.expand_loadwn⟩⟩,
    fun s n b ws is rest hexp hcap hp => ?_⟩
  have hloadwn : (AsmLine.loadwn n b ws).expand = some is := by
    rcases hexp with h | ⟨h, rfl⟩ <;> exact h
  obtain ⟨⟨w, h⟩, rfl⟩ := expand_loadwn_eq_some.1 hloadwn
  exact ⟨w, h.width.symm, h.run_loadCommands hcap hp⟩

end Sys2Proof.Machine

/-! ## WordCodec (40_wordcodec.md)

Each function by the bits of its value (R47 to R49), and the laws read off those bits (R51). -/

namespace Sys2Proof.Machine

variable {word p q width v u : Nat}

/-! ### The three functions bit by bit -/

/-- The model's spelling of the shift (R46) and the rules' spelling of the value bit name the same bit. -/
theorem one_shiftLeft_codec (p width : Nat) : 1 <<< (width - p - 1) = 2 ^ (width - 1 - p) := by
  rw [Nat.one_shiftLeft, Nat.sub_right_comm]

theorem wcGet_eq_testBit (hd : wordCodecDomain word p width = true) :
    wcGet word p width = some (word.testBit (width - 1 - p)).toNat :=
  wcGet_eq_some.2 ⟨hd, by
    rw [Nat.toNat_testBit, Nat.and_one_is_mod, Nat.shiftRight_eq_div_pow, Nat.sub_right_comm]⟩

theorem wcGet_eq_one_iff (hd : wordCodecDomain word p width = true) :
    wcGet word p width = some 1 ↔ word.testBit (width - 1 - p) = true := by
  rw [wcGet_eq_testBit hd, Option.some.injEq, Bool.toNat_eq_one]

theorem wcGet_eq_zero_iff (hd : wordCodecDomain word p width = true) :
    wcGet word p width = some 0 ↔ word.testBit (width - 1 - p) = false := by
  rw [wcGet_eq_testBit hd, Option.some.injEq, Bool.toNat_eq_zero]

theorem wcSet_eq_some_iff_testBit :
    wcSet word p width = some v ↔ wordCodecDomain word p width = true ∧
      ∀ j, v.testBit j = (word.testBit j || decide (j = width - 1 - p)) := by
  rw [wcSet_eq_some, one_shiftLeft_codec, Nat.eq_iff_testBit_eq]
  simp only [Nat.testBit_or, Nat.testBit_two_pow, eq_comm (a := width - 1 - p)]

/-- The mask of `wc_clear`: the low `width` bits but one (R49). -/
theorem testBit_clearMask {b : Nat} (hb : b < width) (j : Nat) :
    (ones width ^^^ 2 ^ b).testBit j = (decide (j < width) && !decide (j = b)) := by
  rw [Nat.testBit_xor, testBit_ones, Nat.testBit_two_pow]
  by_cases hj : j = b
  · simp [hj, hb]
  · simp [hj, Ne.symm hj]

theorem wcClear_eq_some_iff_testBit :
    wcClear word p width = some v ↔ wordCodecDomain word p width = true ∧
      ∀ j, v.testBit j = (word.testBit j && decide (j < width) && !decide (j = width - 1 - p)) := by
  rw [wcClear_eq_some, one_shiftLeft_codec, Nat.eq_iff_testBit_eq]
  refine and_congr_right fun hd => ?_
  have hb : width - 1 - p < width := by have := (wordCodecDomain_iff.1 hd).1; omega
  simp only [Nat.testBit_and, testBit_clearMask hb, Bool.and_assoc]

theorem wordCodec_outside_domain (hd : ¬ wordCodecDomain word p width = true) :
    wcGet word p width = none ∧ wcSet word p width = none ∧ wcClear word p width = none :=
  ⟨if_neg hd, if_neg hd, if_neg hd⟩

/-- Settles O42: inside the domain each function's value is given by its bits, outside it there is none. -/
theorem wordCodecActsOnOneBit : Obligations.WordCodecActsOnOneBit := by
  intro word p width
  rw [← wordCodecDomain_iff]
  refine ⟨fun hd => ?_, wordCodec_outside_domain⟩
  have hset := wcSet_eq_some.2 ⟨hd, rfl⟩
  have hclear := wcClear_eq_some.2 ⟨hd, rfl⟩
  exact ⟨wcGet_eq_testBit hd, ⟨_, hset, (wcSet_eq_some_iff_testBit.1 hset).2⟩,
    ⟨_, hclear, (wcClear_eq_some_iff_testBit.1 hclear).2⟩⟩

/-! ### The value of one function as the word of another

`wc_set` and `wc_clear` keep their word inside the domain, at every position. -/

theorem wordCodecDomain_of_wcSet (h : wcSet word p width = some v) (hq : q < width) :
    wordCodecDomain v q width = true := by
  obtain ⟨hd, rfl⟩ := wcSet_eq_some.1 h
  obtain ⟨h1, h64, hp, hw⟩ := wordCodecDomain_iff.1 hd
  refine wordCodecDomain_iff.2 ⟨h1, h64, hq, Nat.or_lt_two_pow hw ?_⟩
  rw [one_shiftLeft_codec]
  exact Nat.pow_lt_pow_right (by omega) (by omega)

theorem wordCodecDomain_of_wcClear (h : wcClear word p width = some v) (hq : q < width) :
    wordCodecDomain v q width = true := by
  obtain ⟨h1, h64, -, -⟩ := wordCodecDomain_iff.1 (wcClear_eq_some.1 h).1
  exact wordCodecDomain_iff.2 ⟨h1, h64, hq, (wcClear_lt h).trans_le (Nat.pow_le_pow_right (by omega) h64)⟩

/-- Different positions of one word are different value bits (R46). -/
theorem valueBit_inj (hp : p < width) (hq : q < width) : width - 1 - q = width - 1 - p ↔ q = p := by
  omega

/-- R51 (a), (c): after `wc_set` the set position reads 1 and every other one as before. -/
theorem wcGet_of_wcSet (h : wcSet word p width = some v) (hq : q < width) :
    wcGet v q width = if q = p then some 1 else wcGet word q width := by
  obtain ⟨hd, hbits⟩ := wcSet_eq_some_iff_testBit.1 h
  obtain ⟨h1, h64, hp, hw⟩ := wordCodecDomain_iff.1 hd
  rw [wcGet_eq_testBit (wordCodecDomain_of_wcSet h hq), hbits,
    wcGet_eq_testBit (wordCodecDomain_iff.2 ⟨h1, h64, hq, hw⟩)]
  by_cases hqp : q = p <;> simp [valueBit_inj hp hq, hqp]

/-- R51 (b), (c): after `wc_clear` the cleared position reads 0 and every other one as before. -/
theorem wcGet_of_wcClear (h : wcClear word p width = some v) (hq : q < width) :
    wcGet v q width = if q = p then some 0 else wcGet word q width := by
  obtain ⟨hd, hbits⟩ := wcClear_eq_some_iff_testBit.1 h
  obtain ⟨h1, h64, hp, hw⟩ := wordCodecDomain_iff.1 hd
  have hlt : width - 1 - q < width := by omega
  rw [wcGet_eq_testBit (wordCodecDomain_of_wcClear h hq), hbits,
    wcGet_eq_testBit (wordCodecDomain_iff.2 ⟨h1, h64, hq, hw⟩)]
  by_cases hqp : q = p <;> simp [valueBit_inj hp hq, hqp, hlt]

/-- R51 (d): the set bit is already set. -/
theorem wcSet_of_wcSet (h : wcSet word p width = some v) : wcSet v p width = some v := by
  obtain ⟨hd, hbits⟩ := wcSet_eq_some_iff_testBit.1 h
  refine wcSet_eq_some_iff_testBit.2
    ⟨wordCodecDomain_of_wcSet h (wordCodecDomain_iff.1 hd).2.2.1, fun j => ?_⟩
  rw [hbits, Bool.or_assoc, Bool.or_self]

/-- R51 (d): the cleared bits are already clear. -/
theorem wcClear_of_wcClear (h : wcClear word p width = some v) : wcClear v p width = some v := by
  obtain ⟨hd, hbits⟩ := wcClear_eq_some_iff_testBit.1 h
  refine wcClear_eq_some_iff_testBit.2
    ⟨wordCodecDomain_of_wcClear h (wordCodecDomain_iff.1 hd).2.2.1, fun j => ?_⟩
  rw [hbits, Bool.and_assoc, Bool.and_assoc, Bool.and_assoc, Bool.and_self]

/-- R51 (e), for any word of the domain: clearing does not see an earlier set of the same bit. -/
theorem wcClear_of_wcSet (hs : wcSet word p width = some v) (hc : wcClear word p width = some u) :
    wcClear v p width = some u := by
  obtain ⟨hd, hset⟩ := wcSet_eq_some_iff_testBit.1 hs
  obtain ⟨-, hclear⟩ := wcClear_eq_some_iff_testBit.1 hc
  refine wcClear_eq_some_iff_testBit.2
    ⟨wordCodecDomain_of_wcSet hs (wordCodecDomain_iff.1 hd).2.2.1, fun j => ?_⟩
  rw [hset, hclear]
  by_cases hj : j = width - 1 - p <;> simp [hj]

/-! ### A word inside its item width

Such a word has no bit that `wc_clear` takes out besides the one addressed (R49). -/

theorem testBit_and_lt (hlt : word < 2 ^ width) (j : Nat) :
    (word.testBit j && decide (j < width)) = word.testBit j := by
  rw [← testBit_ones width j, ← Nat.testBit_and, ones, Nat.and_two_pow_sub_one_of_lt_two_pow hlt]

/-- R51 (e): setting does not see an earlier clear of the same bit. -/
theorem wcSet_of_wcClear (hlt : word < 2 ^ width) (hc : wcClear word p width = some u)
    (hs : wcSet word p width = some v) : wcSet u p width = some v := by
  obtain ⟨hd, hclear⟩ := wcClear_eq_some_iff_testBit.1 hc
  obtain ⟨-, hset⟩ := wcSet_eq_some_iff_testBit.1 hs
  refine wcSet_eq_some_iff_testBit.2
    ⟨wordCodecDomain_of_wcClear hc (wordCodecDomain_iff.1 hd).2.2.1, fun j => ?_⟩
  rw [hset, hclear, testBit_and_lt hlt]
  by_cases hj : j = width - 1 - p <;> simp [hj]

/-- `wc_set` gives the word back when its bit is 1 (R48). -/
theorem wcSet_eq_self (hd : wordCodecDomain word p width = true) (h : wcGet word p width = some 1) :
    wcSet word p width = some word := by
  have hbit := (wcGet_eq_one_iff hd).1 h
  refine wcSet_eq_some_iff_testBit.2 ⟨hd, fun j => ?_⟩
  by_cases hj : j = width - 1 - p <;> simp [hj, hbit]

/-- R51 (e): `wc_clear` gives the word back exactly when its bit is 0. -/
theorem wcClear_eq_self_iff (hd : wordCodecDomain word p width = true) (hlt : word < 2 ^ width) :
    wcClear word p width = some word ↔ wcGet word p width = some 0 := by
  constructor
  · intro h
    rw [wcGet_of_wcClear h (wordCodecDomain_iff.1 hd).2.2.1, if_pos rfl]
  · intro h
    have hbit := (wcGet_eq_zero_iff hd).1 h
    refine wcClear_eq_some_iff_testBit.2 ⟨hd, fun j => ?_⟩
    rw [testBit_and_lt hlt]
    by_cases hj : j = width - 1 - p <;> simp [hj, hbit]

/-! ### The values as a sum and a difference -/

/-- Or with a clear bit is addition: split the word above that bit, where nothing carries. -/
theorem or_two_pow_eq_add_of_testBit {n b : Nat} (h : n.testBit b = false) : n ||| 2 ^ b = n + 2 ^ b := by
  have hlow : n % 2 ^ (b + 1) < 2 ^ b := by
    refine Nat.lt_pow_two_of_testBit _ fun i hi => ?_
    rcases hi.eq_or_lt with rfl | hi
    · rw [Nat.testBit_mod_two_pow, h, Bool.and_false]
    · rw [Nat.testBit_mod_two_pow, decide_eq_false (by omega), Bool.false_and]
  have hsum : n % 2 ^ (b + 1) + 2 ^ b < 2 ^ (b + 1) :=
    (Nat.add_lt_add_right hlow _).trans_eq (by rw [Nat.pow_succ, Nat.mul_two])
  have hsplit : n = 2 ^ (b + 1) * (n / 2 ^ (b + 1)) + n % 2 ^ (b + 1) := (Nat.div_add_mod n _).symm
  calc n ||| 2 ^ b
      = 2 ^ (b + 1) * (n / 2 ^ (b + 1)) ||| (n % 2 ^ (b + 1) ||| 2 ^ b) := by
        rw [← Nat.or_assoc, ← Nat.two_pow_add_eq_or_of_lt (Nat.mod_lt _ (Nat.two_pow_pos _)), ← hsplit]
    _ = 2 ^ (b + 1) * (n / 2 ^ (b + 1)) + (n % 2 ^ (b + 1) + 2 ^ b) := by
        rw [Nat.or_two_pow_eq_add_of_lt hlow, Nat.two_pow_add_eq_or_of_lt hsum]
    _ = n + 2 ^ b := by rw [← Nat.add_assoc, ← hsplit]

/-- R51 (f): setting a bit that is 0 adds its weight. -/
theorem wcSet_eq_add (hd : wordCodecDomain word p width = true) (h : wcGet word p width = some 0) :
    wcSet word p width = some (word + 2 ^ (width - 1 - p)) :=
  have hbit := (wcGet_eq_zero_iff hd).1 h
  wcSet_eq_some.2 ⟨hd, by rw [one_shiftLeft_codec, or_two_pow_eq_add_of_testBit hbit]⟩

/-- R51 (f): clearing a bit that is 1 subtracts its weight, as setting it again adds that weight. -/
theorem wcClear_eq_sub (hd : wordCodecDomain word p width = true) (hlt : word < 2 ^ width)
    (h : wcGet word p width = some 1) :
    wcClear word p width = some (word - 2 ^ (width - 1 - p)) := by
  obtain ⟨u, hc, -⟩ := wcClear_completes hd
  have hp := (wordCodecDomain_iff.1 hd).2.2.1
  have hback : wcSet u p width = some word := wcSet_of_wcClear hlt hc (wcSet_eq_self hd h)
  have hzero : wcGet u p width = some 0 := by rw [wcGet_of_wcClear hc hp, if_pos rfl]
  have hadd : word = u + 2 ^ (width - 1 - p) :=
    Option.some.inj (hback.symm.trans (wcSet_eq_add (wordCodecDomain_of_wcClear hc hp) hzero))
  rw [hc, hadd, Nat.add_sub_cancel]

/-- R51 (f) for `wc_set`, by the two values of the bit. -/
theorem wcSet_eq_ite (hd : wordCodecDomain word p width = true) :
    wcSet word p width =
      some (if wcGet word p width = some 0 then word + 2 ^ (width - 1 - p) else word) := by
  split_ifs with h
  · exact wcSet_eq_add hd h
  · refine wcSet_eq_self hd ((wcGet_eq_one_iff hd).2 ?_)
    rwa [wcGet_eq_zero_iff hd, Bool.not_eq_false] at h

/-- R51 (f) for `wc_clear`, by the two values of the bit. -/
theorem wcClear_eq_ite (hd : wordCodecDomain word p width = true) (hlt : word < 2 ^ width) :
    wcClear word p width =
      some (if wcGet word p width = some 1 then word - 2 ^ (width - 1 - p) else word) := by
  split_ifs with h
  · exact wcClear_eq_sub hd hlt h
  · refine (wcClear_eq_self_iff hd hlt).2 ((wcGet_eq_zero_iff hd).2 ?_)
    rwa [wcGet_eq_one_iff hd, Bool.not_eq_true] at h

/-- Settles O43: with the values of `wc_set` and `wc_clear` named, each law is one of the lemmas above. -/
theorem wordCodecLaws : Obligations.WordCodecLaws := by
  intro word p width h1 h64 hp hw
  have hd := wordCodecDomain_iff.2 ⟨h1, h64, hp, hw⟩
  obtain ⟨v, hs⟩ : ∃ v, wcSet word p width = some v := ⟨_, wcSet_eq_some.2 ⟨hd, rfl⟩⟩
  obtain ⟨u, hc, -⟩ := wcClear_completes hd
  refine ⟨?_, fun q hq hne => ?_, ?_,
    fun hlt => ⟨?_, wcClear_eq_self_iff hd hlt, ?_, wcSet_eq_ite hd, wcClear_eq_ite hd hlt⟩⟩ <;>
    simp only [hs, hc, Option.bind_some]
  · exact ⟨by rw [wcGet_of_wcSet hs hp, if_pos rfl], by rw [wcGet_of_wcClear hc hp, if_pos rfl]⟩
  · exact ⟨by rw [wcGet_of_wcSet hs hq, if_neg hne], by rw [wcGet_of_wcClear hc hq, if_neg hne]⟩
  · exact ⟨wcSet_of_wcSet hs, wcClear_of_wcClear hc⟩
  · exact wcClear_of_wcSet hs hc
  · exact wcSet_of_wcClear hlt hc hs

end Sys2Proof.Machine

/-! ## Rounding up (00_scope.md)

The padding that fills a bit string up to whole words, and how it counts words. -/

namespace Sys2Proof

theorem divCeil_mul_mul_right (a : Nat) {b c : Nat} (hb : 0 < b) (hc : 0 < c) :
    divCeil (a * c) (b * c) = divCeil a b :=
  eq_of_forall_ge_iff fun k => by
    rw [divCeil_le_iff (Nat.mul_pos hb hc), divCeil_le_iff hb, ← Nat.mul_assoc, Nat.mul_le_mul_right_iff hc]

/-- The number of bits that fill `bits` bits up to a whole number of words of the width `width`. -/
def padding (width bits : Nat) : Nat := divCeil bits width * width - bits

theorem padding_add_self {width : Nat} (hw : 0 < width) (bits : Nat) :
    padding width (width + bits) = padding width bits := by
  have hceil : divCeil (width + bits) width = divCeil bits width + 1 := by
    unfold divCeil
    rw [show width + bits + width - 1 = bits + width - 1 + width by omega, Nat.add_div_right _ hw]
  rw [padding, hceil, Nat.succ_mul, Nat.add_comm width bits, Nat.add_sub_add_right, padding]

theorem padding_of_dvd {width bits : Nat} (hw : 0 < width) (hd : width ∣ bits) : padding width bits = 0 := by
  obtain ⟨k, rfl⟩ := hd
  rw [padding, Nat.mul_comm width k, divCeil_mul_self k hw, Nat.sub_self]

theorem padding_of_lt {width bits : Nat} (hpos : 0 < bits) (hlt : bits < width) :
    padding width bits = width - bits := by
  have hceil : divCeil bits width = 1 :=
    Nat.div_eq_of_lt_le (by omega) (by omega)
  rw [padding, hceil, Nat.one_mul]

/-- Padding in bits is padding in fields, where a word is `r` fields of the width `old`. -/
theorem padding_mul {old r : Nat} (ho : 0 < old) (hr : 0 < r) (n : Nat) :
    padding (old * r) (n * old) = (divCeil n r * r - n) * old := by
  rw [padding, Nat.mul_comm old r, divCeil_mul_mul_right n hr ho, Nat.sub_mul, Nat.mul_assoc]

/-- One more field of a word that is not full does not overrun it. -/
theorem add_le_of_dvd_of_lt {k m n : Nat} (hm : k ∣ m) (hn : k ∣ n) (hlt : m < n) : m + k ≤ n := by
  have := Nat.le_of_dvd (by omega) (Nat.dvd_sub hn hm)
  omega

end Sys2Proof

/-! ## WordArrayResizer (41_resizer.md)

A word list is determined by its bit stream (R58), so each law is read off the stream of the words a resize makes:
widening and narrowing both keep the stream, and widening appends the zero bits that fill its last word. -/

namespace Sys2Proof.Machine

variable {old new r : Nat} {ws : List Nat}

/-! ### Words and their streams -/

/-- The stream of one word: its `width` value bits, most significant first. -/
def wordBits (width v : Nat) : List Bool := (List.range width).map fun j => v.testBit (width - 1 - j)

theorem stream_eq_flatMap (width : Nat) (ws : List Nat) : stream width ws = ws.flatMap (wordBits width) := rfl

@[simp] theorem stream_nil (width : Nat) : stream width [] = [] := rfl

@[simp] theorem stream_cons (width v : Nat) (ws : List Nat) :
    stream width (v :: ws) = wordBits width v ++ stream width ws := rfl

@[simp] theorem stream_append (width : Nat) (us ws : List Nat) :
    stream width (us ++ ws) = stream width us ++ stream width ws := List.flatMap_append

@[simp] theorem wordBits_width_zero (v : Nat) : wordBits 0 v = [] := rfl

@[simp] theorem wordBits_length (width v : Nat) : (wordBits width v).length = width := by simp [wordBits]

@[simp] theorem wordBits_zero (width : Nat) : wordBits width 0 = List.replicate width false := by
  simp [wordBits, List.map_const']

@[simp] theorem stream_replicate_zero (width k : Nat) :
    stream width (List.replicate k 0) = List.replicate (k * width) false := by
  rw [stream_eq_flatMap, List.flatMap_replicate, wordBits_zero, List.flatten_replicate_replicate]

@[simp] theorem stream_length (width : Nat) (ws : List Nat) : (stream width ws).length = ws.length * width := by
  induction ws with
  | nil => simp
  | cons v ws ih => rw [stream_cons, List.length_append, wordBits_length, ih, List.length_cons, Nat.succ_mul, Nat.add_comm]

/-- Appending a field of `old` bits to a word appends the field's stream. -/
theorem wordBits_shift_or {w : Nat} (hw : w < 2 ^ old) (processed acc : Nat) :
    wordBits (processed + old) ((acc <<< old) ||| w) = wordBits processed acc ++ wordBits old w := by
  unfold wordBits
  rw [List.range_add, List.map_append, List.map_map]
  refine congrArg₂ _ (List.map_congr_left fun j hj => ?_) (List.map_congr_left fun j hj => ?_) <;>
    rw [List.mem_range] at hj
  · have hhigh : w.testBit (processed + old - 1 - j) = false :=
      Nat.testBit_lt_two_pow (hw.trans_le (Nat.pow_le_pow_right (by omega) (by omega)))
    rw [Nat.testBit_or, hhigh, Nat.testBit_shiftLeft, Bool.or_false,
      show processed + old - 1 - j - old = processed - 1 - j by omega]
    simp [show old ≤ processed + old - 1 - j by omega]
  · have hlow : ¬ old ≤ old - 1 - j := by omega
    rw [Function.comp_apply, show processed + old - 1 - (processed + j) = old - 1 - j by omega, Nat.testBit_or,
      Nat.testBit_shiftLeft, decide_eq_false hlow, Bool.false_and, Bool.false_or]

/-- A word is determined by its stream at a width that holds it. -/
theorem wordBits_inj {width u v : Nat} (hu : u < 2 ^ width) (hv : v < 2 ^ width) (h : wordBits width u = wordBits width v) :
    u = v := by
  refine Nat.eq_of_testBit_eq fun i => ?_
  rcases lt_or_ge i width with hi | hi
  · have hbit := List.map_inj_left.1 h (width - 1 - i) (List.mem_range.2 (by omega))
    rwa [show width - 1 - (width - 1 - i) = i by omega] at hbit
  · have hbound : 2 ^ width ≤ 2 ^ i := Nat.pow_le_pow_right (by omega) hi
    rw [Nat.testBit_lt_two_pow (hu.trans_le hbound), Nat.testBit_lt_two_pow (hv.trans_le hbound)]

/-- A list of words is determined by its stream at a width that holds every one of them. -/
theorem stream_inj {width : Nat} (hw : 0 < width) {us vs : List Nat} (hus : ∀ u ∈ us, u < 2 ^ width)
    (hvs : ∀ v ∈ vs, v < 2 ^ width) (h : stream width us = stream width vs) : us = vs := by
  have hlen : us.length = vs.length :=
    Nat.eq_of_mul_eq_mul_right hw (by rw [← stream_length, h, stream_length])
  induction us generalizing vs with
  | nil => exact (List.length_eq_zero_iff.1 hlen.symm).symm
  | cons u us ih =>
    obtain ⟨v, vs, rfl⟩ := List.exists_cons_of_length_eq_add_one hlen.symm
    obtain ⟨hu, hus⟩ := List.forall_mem_cons.1 hus
    obtain ⟨hv, hvs⟩ := List.forall_mem_cons.1 hvs
    obtain ⟨hhead, htail⟩ := List.append_inj h (by simp)
    rw [wordBits_inj hu hv hhead, ih hus hvs htail (Nat.succ.inj hlen)]

/-! ### The padding and widening loops -/

/-- The padding loop appends zero bits up to the new width (R55). -/
theorem wordBits_padFinal (ho : 0 < old) (hd : old ∣ new) (fuel : Nat) :
    ∀ acc processed : Nat, old ∣ processed → processed ≤ new → new ≤ processed + fuel →
      wordBits new (padFinal old new fuel acc processed) =
        wordBits processed acc ++ List.replicate (new - processed) false := by
  induction fuel with
  | zero =>
    intro acc processed _ hle hfuel
    obtain rfl : processed = new := by omega
    simp [padFinal]
  | succ fuel ih =>
    intro acc processed hp hle hfuel
    unfold padFinal
    split
    · rename_i hlt
      have hnext := add_le_of_dvd_of_lt hp hd hlt
      rw [ih _ _ (Nat.dvd_add hp dvd_rfl) hnext (by omega), wordBits_shift_or (Nat.two_pow_pos _), wordBits_zero,
        List.append_assoc, List.replicate_append_replicate, show old + (new - (processed + old)) = new - processed by omega]
    · obtain rfl : processed = new := by omega
      simp

/-- The widening loop emits the bits it has accumulated, then the stream it has not read, then the padding (R55, R58). -/
theorem stream_widenLoop (ho : 0 < old) (hd : old ∣ new) :
    ∀ (ws : List Nat) (acc processed : Nat), (∀ v ∈ ws, v < 2 ^ old) → old ∣ processed → processed < new →
      stream new (widenLoop old new ws acc processed) =
        wordBits processed acc ++ stream old ws ++
          List.replicate (padding new (processed + ws.length * old)) false := by
  intro ws
  induction ws with
  | nil =>
    intro acc processed _ hp hlt
    simp only [widenLoop, stream_nil, List.append_nil, List.length_nil, Nat.zero_mul, Nat.add_zero]
    split
    · rename_i hpos
      rw [stream_cons, stream_nil, List.append_nil, wordBits_padFinal ho hd new acc processed hp hlt.le (by omega),
        padding_of_lt hpos hlt]
    · obtain rfl : processed = 0 := by omega
      rw [padding_of_dvd hlt (dvd_zero _)]
      rfl
  | cons w ws ih =>
    intro acc processed hws hp hlt
    obtain ⟨hw, hrest⟩ := List.forall_mem_cons.1 hws
    rw [List.length_cons, show processed + (ws.length + 1) * old = processed + old + ws.length * old by ring,
      stream_cons, ← List.append_assoc, ← wordBits_shift_or hw]
    unfold widenLoop
    split
    · rename_i hfull
      rw [stream_cons, ih 0 0 hrest (dvd_zero _) (by omega), hfull, padding_add_self (by omega), Nat.zero_add,
        wordBits_width_zero, List.nil_append, List.append_assoc]
    · rename_i hnot
      have := add_le_of_dvd_of_lt hp hd hlt
      exact ih _ _ hrest (Nat.dvd_add hp dvd_rfl) (by omega)

/-- Widening keeps the stream and pads its last word with zero bits (R58 (a)). -/
theorem stream_widen (ho : 0 < old) (hd : old ∣ new) (hlt : old < new) (hws : ∀ v ∈ ws, v < 2 ^ old) :
    stream new (widen old new ws) =
      stream old ws ++ List.replicate (padding new (ws.length * old)) false := by
  rw [widen, stream_widenLoop ho hd ws 0 0 hws (dvd_zero _) (by omega), wordBits_width_zero, List.nil_append, Nat.zero_add]

/-! ### Indices in groups -/

/-- The indices below `a * b`, in `a` groups of `b`. -/
theorem range_mul_eq_flatMap (a b : Nat) :
    List.range (a * b) = (List.range a).flatMap fun j => (List.range b).map fun t => j * b + t := by
  induction a with
  | zero => simp
  | succ a ih => rw [Nat.succ_mul, List.range_add, ih, List.range_succ, List.flatMap_append, List.flatMap_singleton]

/-- The words of a list, then words read past its end as 0 (R57). -/
theorem map_getD_range {m : Nat} (hm : ws.length ≤ m) :
    (List.range m).map (fun k => ws.getD k 0) = ws ++ List.replicate (m - ws.length) 0 := by
  refine List.ext_getElem (by simp; omega) fun k hk _ => ?_
  rcases lt_or_ge k ws.length with hlt | hge
  · simp [hlt]
  · simp [hge]

/-! ### Narrowing -/

/-- A chunk is the field of its number, most significant first (R57). -/
theorem chunk_eq_div_mod (q w c : Nat) :
    chunk (q * new) new w c = w / 2 ^ (new * (q - 1 - c)) % 2 ^ new := by
  have hshift : q * new - new * (c + 1) = new * (q - 1 - c) := by
    rw [Nat.mul_comm q new, ← Nat.mul_sub, Nat.sub_add_eq, Nat.sub_right_comm]
  rw [chunk, hshift, ones, Nat.and_two_pow_sub_one_eq_mod, Nat.shiftRight_eq_div_pow]

theorem narrow_eq_closedNarrow (hn : 0 < new) (hd : new ∣ old) : narrow old new ws = closedNarrow old new ws := by
  obtain ⟨q, rfl⟩ := exists_eq_mul_left_of_dvd hd
  unfold narrow closedNarrow
  have hws := map_getD_range (ws := ws) le_rfl
  rw [Nat.sub_self, List.replicate_zero, List.append_nil] at hws
  conv_lhs => rw [← hws, List.flatMap_map]
  rw [Nat.mul_div_cancel q hn, range_mul_eq_flatMap, List.map_flatMap]
  refine List.flatMap_congr fun k _ => ?_
  rw [List.map_map]
  refine List.map_congr_left fun c hc => ?_
  rw [List.mem_range] at hc
  rw [chunk_eq_div_mod, Function.comp_apply, Nat.mul_comm k q, Nat.mul_add_div (by omega), Nat.div_eq_of_lt hc,
    Nat.mul_add_mod, Nat.mod_eq_of_lt hc, Nat.add_zero]

/-- The chunks of a word are its stream in groups (R56). -/
theorem stream_chunks (q w : Nat) :
    stream new ((List.range q).map (chunk (q * new) new w)) = wordBits (q * new) w := by
  rw [stream_eq_flatMap, List.flatMap_map, wordBits, range_mul_eq_flatMap, List.map_flatMap]
  refine List.flatMap_congr fun c hc => ?_
  rw [List.map_map, wordBits]
  refine List.map_congr_left fun j hj => ?_
  rw [List.mem_range] at hc hj
  have hindex : new - 1 - j + new * (q - 1 - c) = q * new - 1 - (c * new + j) := by
    obtain ⟨d, rfl⟩ := Nat.exists_eq_add_of_lt hc
    rw [show c + d + 1 - 1 - c = d by omega, show (c + d + 1) * new = c * new + new * d + new by ring]
    omega
  rw [chunk_eq_div_mod, Nat.testBit_mod_two_pow, Nat.testBit_div_two_pow, hindex, Function.comp_apply]
  simp [show new - 1 - j < new by omega]

/-- Narrowing keeps the stream (R58 (a)). -/
theorem stream_narrow (hn : 0 < new) (hd : new ∣ old) (ws : List Nat) :
    stream new (narrow old new ws) = stream old ws := by
  obtain ⟨q, rfl⟩ := exists_eq_mul_left_of_dvd hd
  rw [narrow, Nat.mul_div_cancel q hn, stream_eq_flatMap, List.flatMap_assoc]
  exact List.flatMap_congr fun w _ => stream_chunks q w

/-! ### The closed form of widening -/

/-- The word made of `r` fields of `old` bits, field `0` the most significant (R57). -/
def fieldSum (old r : Nat) (f : Nat → Nat) : Nat := ((List.range r).map fun t => f t * 2 ^ (old * (r - 1 - t))).sum

theorem closedWiden_eq_fieldSum (old new : Nat) (ws : List Nat) :
    closedWiden old new ws = (List.range (divCeil ws.length (new / old))).map fun j =>
      fieldSum old (new / old) fun t => ws.getD (j * (new / old) + t) 0 := rfl

/-- One more field moves the others up by its width. -/
theorem fieldSum_succ {f : Nat → Nat} (hf : f r < 2 ^ old) :
    fieldSum old (r + 1) f = (fieldSum old r f <<< old) ||| f r := by
  have hshift : fieldSum old r f * 2 ^ old = ((List.range r).map fun t => f t * 2 ^ (old * (r - t))).sum := by
    rw [fieldSum, ← List.sum_map_mul_right]
    refine congrArg _ (List.map_congr_left fun t ht => ?_)
    rw [List.mem_range] at ht
    rw [Nat.mul_assoc, ← Nat.pow_add, ← Nat.mul_succ, show (r - 1 - t).succ = r - t by omega]
  rw [← Nat.shiftLeft_add_eq_or_of_lt hf, Nat.shiftLeft_eq, hshift, fieldSum, List.range_succ, List.map_append,
    List.sum_append]
  simp

theorem fieldSum_lt {f : Nat → Nat} (hf : ∀ t, f t < 2 ^ old) (r : Nat) : fieldSum old r f < 2 ^ (old * r) := by
  induction r with
  | zero => simp [fieldSum]
  | succ r ih => rw [fieldSum_succ (hf r), Nat.mul_succ]; exact shift_or_lt ih (hf r)

theorem wordBits_fieldSum {f : Nat → Nat} (hf : ∀ t, f t < 2 ^ old) (r : Nat) :
    wordBits (old * r) (fieldSum old r f) = stream old ((List.range r).map f) := by
  induction r with
  | zero => rfl
  | succ r ih =>
    rw [fieldSum_succ (hf r), Nat.mul_succ, wordBits_shift_or (hf r), ih, List.range_succ, List.map_append, stream_append,
      List.map_singleton, stream_cons, stream_nil, List.append_nil]

theorem getD_zero_lt (hws : ∀ v ∈ ws, v < 2 ^ old) (k : Nat) : ws.getD k 0 < 2 ^ old := by
  rcases lt_or_ge k ws.length with hk | hk
  · rw [List.getD_eq_getElem _ _ hk]; exact hws _ (List.getElem_mem hk)
  · rw [List.getD_eq_default _ _ hk]; exact Nat.two_pow_pos old

theorem closedWiden_lt (hd : old ∣ new) (hws : ∀ v ∈ ws, v < 2 ^ old) :
    ∀ v ∈ closedWiden old new ws, v < 2 ^ new := by
  rw [closedWiden_eq_fieldSum, List.forall_mem_map]
  intro j _
  have := fieldSum_lt (fun t => getD_zero_lt hws (j * (new / old) + t)) (new / old)
  rwa [Nat.mul_div_cancel' hd] at this

/-- The closed form of a widening has the stream of its words, read with zero words past the end (R57). -/
theorem stream_closedWiden (ho : 0 < old) (hn : 0 < new) (hd : old ∣ new) (hws : ∀ v ∈ ws, v < 2 ^ old) :
    stream new (closedWiden old new ws) =
      stream old ws ++ List.replicate (padding new (ws.length * old)) false := by
  obtain ⟨r, rfl⟩ := hd
  have hr : 0 < r := Nat.pos_of_mul_pos_left hn
  rw [padding_mul ho hr, ← stream_replicate_zero, ← stream_append, ← map_getD_range (le_divCeil_mul hr),
    closedWiden_eq_fieldSum, Nat.mul_div_cancel_left r ho, range_mul_eq_flatMap, List.map_flatMap, stream_eq_flatMap,
    stream_eq_flatMap, List.flatMap_map, List.flatMap_assoc]
  refine List.flatMap_congr fun j _ => ?_
  rw [wordBits_fieldSum (fun t => getD_zero_lt hws _), List.map_map]
  rfl

/-- R57 for widening: both sides fit the new width and have the same stream. -/
theorem widen_eq_closedWiden (ho : 0 < old) (hd : old ∣ new) (hlt : old < new) (hws : ∀ v ∈ ws, v < 2 ^ old) :
    widen old new ws = closedWiden old new ws := by
  have hn : 0 < new := by omega
  refine stream_inj hn (widenLoop_lt ho hd ws 0 0 hws (by simp) (dvd_zero _) hn) (closedWiden_lt hd hws) ?_
  rw [stream_widen ho hd hlt hws, stream_closedWiden ho hn hd hws]

/-! ### Resizing -/

variable {out : List Nat} {w1 w2 : Width}

theorem resize_self (hws : ∀ v ∈ ws, v < 2 ^ w1.bits) : resize ws w1 w1 = some ws :=
  resize_eq_some.2 ⟨hws, .inl ⟨rfl, rfl⟩⟩

theorem resize_of_lt (hlt : w1.bits < w2.bits) (hws : ∀ v ∈ ws, v < 2 ^ w1.bits) :
    resize ws w1 w2 = some (closedWiden w1.bits w2.bits ws) :=
  have hclosed := widen_eq_closedWiden w1.bits_pos (Width.bits_dvd_of_lt hlt) hlt hws
  resize_eq_some.2 ⟨hws, .inr (.inl ⟨hlt, hclosed.symm⟩)⟩

theorem resize_of_gt (hlt : w2.bits < w1.bits) (hws : ∀ v ∈ ws, v < 2 ^ w1.bits) :
    resize ws w1 w2 = some (closedNarrow w1.bits w2.bits ws) :=
  have hclosed := narrow_eq_closedNarrow w2.bits_pos (Width.bits_dvd_of_lt hlt)
  resize_eq_some.2 ⟨hws, .inr (.inr ⟨hlt, hclosed.symm⟩)⟩

/-- R58 (a), in each of the three cases of a resize. -/
theorem stream_resize (h : resize ws w1 w2 = some out) :
    stream w2.bits out = stream w1.bits ws ++ List.replicate (padding w2.bits (ws.length * w1.bits)) false := by
  obtain ⟨hws, ⟨rfl, rfl⟩ | ⟨hlt, rfl⟩ | ⟨hlt, rfl⟩⟩ := resize_eq_some.1 h
  · rw [padding_of_dvd w2.bits_pos (Nat.dvd_mul_left _ _), List.replicate_zero, List.append_nil]
  · exact stream_widen w1.bits_pos (Width.bits_dvd_of_lt hlt) hlt hws
  · have hd := Width.bits_dvd_of_lt hlt
    rw [stream_narrow w2.bits_pos hd, padding_of_dvd w2.bits_pos (hd.mul_left _), List.replicate_zero, List.append_nil]

theorem resize_length_eq_add_padding (h : resize ws w1 w2 = some out) :
    out.length * w2.bits = ws.length * w1.bits + padding w2.bits (ws.length * w1.bits) := by
  have hlen := congrArg List.length (stream_resize h)
  rwa [List.length_append, stream_length, stream_length, List.length_replicate] at hlen

/-- The nominal length is rounded up to the new width (R57). -/
theorem resize_length (h : resize ws w1 w2 = some out) :
    out.length * w2.bits = divCeil (ws.length * w1.bits) w2.bits * w2.bits := by
  rw [resize_length_eq_add_padding h, padding, Nat.add_sub_cancel' (le_divCeil_mul w2.bits_pos)]

/-- The zero bits a resize adds, counted in words of the old width: none unless it widens (R58 (a)). -/
theorem padding_eq_mul (w1 w2 : Width) (n : Nat) :
    padding w2.bits (n * w1.bits) =
      (if w1.bits < w2.bits then divCeil n (w2.bits / w1.bits) * (w2.bits / w1.bits) - n else 0) * w1.bits := by
  split
  · rename_i hlt
    have hd := Width.bits_dvd_of_lt hlt
    have hr : 0 < w2.bits / w1.bits := Nat.div_pos hlt.le w1.bits_pos
    rw [← padding_mul w1.bits_pos hr, Nat.mul_div_cancel' hd]
  · rename_i hge
    have hd : w2.bits ∣ w1.bits := by
      rcases (not_lt.1 hge).lt_or_eq with hlt | heq
      · exact Width.bits_dvd_of_lt hlt
      · rw [heq]
    rw [padding_of_dvd w2.bits_pos (hd.mul_left n), Nat.zero_mul]

/-- The words of a resize fill whole words of the old width, so resizing them back adds no bits (R58). -/
theorem padding_resize_back (h : resize ws w1 w2 = some out) :
    padding w1.bits (out.length * w2.bits) = 0 := by
  refine padding_of_dvd w1.bits_pos ?_
  rcases lt_or_ge w1.bits w2.bits with hlt | hge
  · exact (Width.bits_dvd_of_lt hlt).mul_left _
  · rw [resize_length_eq_add_padding h, padding_eq_mul, if_neg hge.not_gt, Nat.zero_mul, Nat.add_zero]
    exact Nat.dvd_mul_left _ _

/-- Settles O45: the two sides of the statement and of `stream_resize` differ in the name `padding` only. -/
theorem resizePreservesTheBitStream : Obligations.ResizePreservesTheBitStream :=
  fun _ _ _ _ h => stream_resize h

/-- Settles O44: a resize has one value, so each case's equation names it. -/
theorem resizeIsItsClosedForm : Obligations.ResizeIsItsClosedForm := by
  intro ws old new
  refine ⟨fun hws => ?_, fun hws => if_neg (mt resizerDomain_iff.1 hws)⟩
  obtain ⟨out, hout⟩ := resize_isSome new (resizerDomain_iff.2 hws)
  have hvalue {us : List Nat} (h : resize ws old new = some us) : out = us := Option.some.inj (hout.symm.trans h)
  exact ⟨out, hout, fun he => hvalue (by subst he; exact resize_self hws), fun hlt => hvalue (resize_of_lt hlt hws),
    fun hlt => hvalue (resize_of_gt hlt hws), resize_lt hout, resize_length hout⟩

/-- Settles O46: the words that come back fit their width and have the stream of the words and the zero words. -/
theorem resizeRoundTrip : Obligations.ResizeRoundTrip := by
  intro ws out w1 w2 h
  obtain ⟨back, hback⟩ := resize_isSome w1 (resizerDomain_iff.2 (resize_lt h))
  rw [hback, Option.some.injEq]
  have hws := (resize_eq_some.1 h).1
  refine stream_inj w1.bits_pos (resize_lt hback) ?_ ?_
  · intro v hv
    rcases List.mem_append.1 hv with hv | hv
    · exact hws v hv
    · exact List.eq_of_mem_replicate hv ▸ Nat.two_pow_pos _
  · rw [stream_resize hback, padding_resize_back h, List.replicate_zero, List.append_nil, stream_resize h,
      padding_eq_mul, stream_append, stream_replicate_zero]

end Sys2Proof.Machine

/-! ## BitEngine: the invariants, and the commands on bits (42_bitengine_bit.md)

The invariant that holds between commands and of every run (R73); `INIT` (R61); and `GET`, `SET` and `CLR` by the bit they
address (R62 to R64), with what they and `WRW` leave alone. -/

namespace Sys2Proof.Machine

variable {s t u : State} {i : Instr}

/-! ### Each write of the engine state keeps it legal

One lemma per write that `exec_next` and `step_next` name. -/

/-- One word write inside `MemWrite`'s requirement, as `SET`, `CLR` and `WRW` do it. -/
theorem State.Inv.setWord (h : s.Inv) {k v : Nat} (hv : v < 2 ^ s.iw k) : (s.setWord k v).Inv where
  store := wf_set h.store hv
  capacity := by simpa using h.capacity

/-- The capacity is a whole number of words of every width (R2, R4), so rounding up to one never passes it. -/
theorem divCeil_mul_le_capBits {n : Nat} (hn : n ≤ Config.capBits) (w : Width) :
    divCeil n w.bits * w.bits ≤ Config.capBits := by
  have hd : w.bits ∣ Config.capBits := w.bits_facts.2.2.trans Config.capBits_dvd
  calc divCeil n w.bits * w.bits
      ≤ Config.capBits / w.bits * w.bits :=
        Nat.mul_le_mul_right _ ((divCeil_le_iff w.bits_pos).2 (by rwa [Nat.div_mul_cancel hd]))
    _ = Config.capBits := Nat.div_mul_cancel hd

/-- `CHW` checks no capacity and needs none: repacking only rounds the nominal length up (R65). -/
theorem State.Inv.withStore (h : s.Inv) {w : Width} {ws : List Nat} (hws : resize s.words s.bpi w = some ws) :
    (s.withStore ws w).Inv where
  store := wf_full (resize_lt hws)
  capacity := (resize_length hws).trans_le (divCeil_mul_le_capBits h.capacity w)

/-- What `INIT` constructs is legal once its capacity check passes, whatever was there (R61). -/
theorem zeroStore_inv {w : Width} {n : Nat} (hcap : divCeil n w.bits * w.bits ≤ Config.capBits) :
    ({ s with words := List.replicate (divCeil n w.bits) 0, bpi := w, bitcount := n } : State).Inv where
  store := wf_zeros n w
  capacity := by rwa [List.length_replicate]

/-- Settles O13: the empty store is canonical and takes none of the capacity. -/
theorem resetStateIsLegal : Obligations.ResetStateIsLegal where
  store := wf_reset_store
  capacity := Nat.zero_le _

/-- Reset reads nothing of the state it leaves, so it makes every state legal (R86). -/
theorem takeReset_inv (s : State) : s.takeReset.Inv :=
  ⟨resetStateIsLegal.store, resetStateIsLegal.capacity⟩

/-! ### Every step keeps the invariant -/

/-- R73 for one command. -/
theorem State.Inv.of_exec (h : s.Inv) (hexec : exec i s = .next t) : t.Inv := by
  obtain ⟨u, r, rfl, rfl | ⟨_, ⟨k, v, _, _, hv, rfl⟩ | ⟨a, w, ws, _, _, _, hws, rfl⟩ | ⟨a, d, w, _, _, hcap, rfl⟩⟩⟩ :=
    exec_next hexec
  · exact h.deliver r
  · exact (h.setWord hv).deliver r
  · exact (h.withStore hws).deliver r
  · exact (zeroStore_inv hcap).deliver r

/-- Settles O12: of the four things a step can do, waiting and an undefined opcode leave the engine state, reset replaces it by
a legal one, and a command keeps it legal. -/
theorem stepKeepsLegalStates : Obligations.StepKeepsLegalStates := by
  intro s t h hstep
  rcases step_next hstep with ⟨_, rfl⟩ | ⟨rest, _, rfl⟩ | ⟨cw, rest, i, _, _, hexec⟩ | ⟨cw, rest, e, _, _, rfl⟩
  · exact h
  · exact takeReset_inv _
  · exact h.popPort.of_exec hexec
  · exact h.popPort.deliver _

/-! ### Every run -/

/-- The engine takes every event in a legal state: what could stop it is a command, and every command completes (R52, R59). -/
theorem State.Inv.step_completes (h : s.Inv) : ∃ t, step s = .next t := by
  rcases hp : s.port with _ | ⟨cw | _, rest⟩
  · exact ⟨s, by simp only [step, hp]⟩
  · cases hd : decode cw with
    | ok i => rw [step_of_decode hp hd]; exact h.popPort.exec_completes i
    | error e => exact ⟨_, step_of_decode_error hp hd⟩
  · exact ⟨s.popPort.takeReset, by simp only [step, hp]⟩

/-- R73 along a run, by the three ways a run goes on. -/
theorem Reachable.inv (h : Reachable s) : s.Inv := by
  induction h with
  | reset => exact resetStateIsLegal
  | present es _ ih => exact ih.present es
  | step _ hstep ih => exact stepKeepsLegalStates _ _ ih hstep

/-- Settles O14: all three parts hold of a legal state. -/
theorem reachableStatesAreLegalAndNeverStop : Obligations.ReachableStatesAreLegalAndNeverStop :=
  fun _ h => ⟨h.inv, h.inv.bitcount_le, h.inv.step_completes⟩

/-! ### INIT -/

/-- The count of all ones is past every legal capacity, which stops 64 below `2^64` (R4, R80). -/
theorem capBits_lt_divCeil_allOnes (w : Width) :
    Config.capBits < divCeil (BitVec.allOnes 64).toNat w.bits * w.bits :=
  calc Config.capBits ≤ 2 ^ 64 - 64 := Config.capBits_le
    _ < (BitVec.allOnes 64).toNat := by decide
    _ ≤ _ := le_divCeil_mul w.bits_pos

/-- Settles O23: the clauses are the three outcomes of `construct_next`, the last one the capacity check again. -/
theorem initConstructsAZeroStore : Obligations.InitConstructsAZeroStore := by
  have hcapacity (a d : Word) (w : Width) (s : State) (hd : d.toNat = w.bits)
      (hcap : Config.capBits < divCeil a.toNat w.bits * w.bits) :
      exec (.init a d) s = .next (s.deliver (errorResponse 0x04)) :=
    construct_next.2 (.inr ⟨w, hd, .inl ⟨hcap, rfl⟩⟩)
  refine ⟨fun a d s hd => ?_, hcapacity, fun a d w s hd hcap => ?_, fun d w s hd => ?_⟩
  · exact construct_next.2 (.inl ⟨hd, rfl⟩)
  · exact construct_next.2 (.inr ⟨w, hd, .inr ⟨hcap, rfl⟩⟩)
  · exact hcapacity _ d w s hd (capBits_lt_divCeil_allOnes w)

/-! ### GET, SET and CLR in range -/

variable {a : Word} {codec : Nat → Nat → Nat → Option Nat}

/-- Settles O25: in range the word is there and inside the codec's domain, and `wc_get` reads the bit R22 names. -/
theorem getReturnsTheAddressedBit : Obligations.GetReturnsTheAddressedBit := by
  intro a s h hin
  obtain ⟨v, hv, _, hdom, _⟩ := h.withBit hin fun _ _ => .next s
  refine ⟨_, by rw [bitAt_of_lt hin, hv, Option.map_some], ?_⟩
  refine execGet_next.2 (.inr ⟨hin, v, _, hv, wcGet_eq_testBit hdom, ?_⟩)
  cases v.testBit (s.iw (a.toNat / s.bpi.bits) - 1 - a.toNat % s.bpi.bits) <;> rfl

/-- `SET` and `CLR` in range, for a codec whose value on words that fit is `f`. -/
theorem State.Inv.modifyBit_eq (h : s.Inv) (hin : a.toNat < s.bitcount) {f : Nat → Nat}
    (hcodec : ∀ v, wordCodecDomain v (a.toNat % s.bpi.bits) (s.iw (a.toNat / s.bpi.bits)) = true →
      v < 2 ^ s.iw (a.toNat / s.bpi.bits) →
      codec v (a.toNat % s.bpi.bits) (s.iw (a.toNat / s.bpi.bits)) = some (f v) ∧
        f v < 2 ^ s.iw (a.toNat / s.bpi.bits)) :
    ∃ v, s.wordAt (a.toNat / s.bpi.bits) = some v ∧
      modifyBit codec a s = .next ((s.setWord (a.toNat / s.bpi.bits) (f v)).deliver (okResponse 0)) := by
  obtain ⟨v, hv, hlt, hdom, _⟩ := h.withBit hin fun _ _ => .next s
  obtain ⟨hvalue, hfits⟩ := hcodec v hdom hlt
  exact ⟨v, hv, modifyBit_next.2 (.inr ⟨hin, v, _, hv, hvalue, (h.address hin).1, hfits, rfl⟩)⟩

/-- Settles O26: `wc_set` ors the value bit in. -/
theorem setWritesOneWord : Obligations.SetWritesOneWord := by
  intro a s h hin
  refine h.modifyBit_eq hin fun v hdom hlt => ?_
  have hset := wcSet_eq_some.2 ⟨hdom, rfl⟩
  rw [one_shiftLeft_codec] at hset
  exact ⟨hset, wcSet_lt hset hlt⟩

/-- Settles O27: `wc_clear` takes the weight of a value bit that is 1, and leaves the word otherwise (R51 (f)). -/
theorem clrWritesOneWord : Obligations.ClrWritesOneWord := by
  intro a s h hin
  refine h.modifyBit_eq hin fun v hdom hlt => ?_
  have hclear := wcClear_eq_ite hdom hlt
  simp only [wcGet_eq_one_iff hdom] at hclear
  exact ⟨hclear, wcClear_lt hclear⟩

/-! ### SET and CLR in the bit space -/

/-- `codec` gives the addressed position of a word the bit `b` and leaves the others of its item width (R48, R49). -/
def WritesBit (codec : Nat → Nat → Nat → Option Nat) (b : Bool) : Prop :=
  ∀ {word p width v : Nat}, codec word p width = some v → ∀ {q : Nat}, q < width →
    v.testBit (width - 1 - q) = if q = p then b else word.testBit (width - 1 - q)

theorem wcSet_writesBit : WritesBit wcSet true := by
  intro word p width v h q hq
  obtain ⟨hdom, hbits⟩ := wcSet_eq_some_iff_testBit.1 h
  obtain ⟨_, _, hp, _⟩ := wordCodecDomain_iff.1 hdom
  by_cases hqp : q = p <;> simp [hbits, valueBit_inj hp hq, hqp]

theorem wcClear_writesBit : WritesBit wcClear false := by
  intro word p width v h q hq
  obtain ⟨hdom, hbits⟩ := wcClear_eq_some_iff_testBit.1 h
  obtain ⟨_, _, hp, _⟩ := wordCodecDomain_iff.1 hdom
  have hbit : width - 1 - q < width := by omega
  by_cases hqp : q = p <;> simp [hbits, valueBit_inj hp hq, hqp, hbit]

/-- What `modifyBit` can do when the index is in range. -/
theorem modifyBit_next_of_lt (hin : a.toNat < s.bitcount) (h : modifyBit codec a s = .next t) :
    ∃ v v', s.wordAt (a.toNat / s.bpi.bits) = some v ∧
      codec v (a.toNat % s.bpi.bits) (s.iw (a.toNat / s.bpi.bits)) = some v' ∧
      a.toNat / s.bpi.bits < s.words.length ∧
      t = (s.setWord (a.toNat / s.bpi.bits) v').deliver (okResponse 0) := by
  rcases modifyBit_next.1 h with ⟨hout, _⟩ | ⟨_, v, v', hv, hv', hk, _, ht⟩
  · exact absurd hin hout.not_gt
  · exact ⟨v, v', hv, hv', hk, ht⟩

theorem bitAt_of_ge {j : Nat} (hj : s.bitcount ≤ j) : s.bitAt j = none := if_neg hj.not_gt

/-- A bit write in the bit space: in the written word the positions decide, elsewhere the word index does (R63, R64). -/
theorem State.Inv.modifyBit_bitAt (h : s.Inv) (hin : a.toNat < s.bitcount) {b : Bool} (hcodec : WritesBit codec b)
    (hexec : modifyBit codec a s = .next t) (j : Nat) :
    t.bitAt j = if j = a.toNat then some b else s.bitAt j := by
  obtain ⟨v, v', hv, hv', hk, rfl⟩ := modifyBit_next_of_lt hin hexec
  rw [deliver_bitAt]
  rcases le_or_gt s.bitcount j with hout | hj
  · rw [bitAt_of_ge (s := s.setWord _ _) hout, bitAt_of_ge hout, if_neg (by omega)]
  · rw [setWord_bitAt hk hj]
    by_cases hword : j / s.bpi.bits = a.toNat / s.bpi.bits
    · have hposition : j % s.bpi.bits = a.toNat % s.bpi.bits ↔ j = a.toNat :=
        ⟨fun hmod => Nat.ext_div_mod hword hmod, fun hja => by rw [hja]⟩
      have hq : j % s.bpi.bits < s.iw (a.toNat / s.bpi.bits) := hword ▸ (h.address hj).2
      rw [if_pos hword, hcodec hv' hq, bitAt_of_lt hj, hword, hv, Option.map_some]
      simp only [hposition, apply_ite some]
    · have hja : j ≠ a.toNat := fun hja => hword (by rw [hja])
      rw [if_neg hword, if_neg hja]

/-- Settles O28: one lemma for both commands, by the bit each codec function writes. -/
theorem bitWriteChangesExactlyTheAddressedBit : Obligations.BitWriteChangesExactlyTheAddressedBit :=
  fun _ _ _ h hin => ⟨h.modifyBit_bitAt hin wcSet_writesBit, h.modifyBit_bitAt hin wcClear_writesBit⟩

/-! ### SET and CLR one after the other -/

/-- Two bit writes at one index apply the second codec to the first's value, and only the last value is left (C3). -/
theorem modifyBit_modifyBit {codec' : Nat → Nat → Nat → Option Nat} (hin : a.toNat < s.bitcount)
    (hst : modifyBit codec a s = .next t) (htu : modifyBit codec' a t = .next u) :
    ∃ v v' v'', s.wordAt (a.toNat / s.bpi.bits) = some v ∧
      codec v (a.toNat % s.bpi.bits) (s.iw (a.toNat / s.bpi.bits)) = some v' ∧
      codec' v' (a.toNat % s.bpi.bits) (s.iw (a.toNat / s.bpi.bits)) = some v'' ∧
      t.words = s.words.set (a.toNat / s.bpi.bits) v' ∧ u.words = s.words.set (a.toNat / s.bpi.bits) v'' := by
  obtain ⟨v, v', hv, hv', hk, ht⟩ := modifyBit_next_of_lt hin hst
  obtain ⟨x, v'', hx, hv'', _, rfl⟩ := modifyBit_next_of_lt (ht ▸ hin) htu
  subst ht
  simp only [deliver_wordAt, deliver_bpi, deliver_iw, setWord_bpi, setWord_iw, setWord_wordAt, if_pos hk, if_true,
    Option.some.injEq] at hx hv''
  subst hx
  exact ⟨v, v', v'', hv, hv', hv'', rfl, List.set_set ..⟩

/-- A bit write whose codec is idempotent. -/
theorem modifyBit_words_idem (hcodec : ∀ {word p width v}, codec word p width = some v → codec v p width = some v)
    (hin : a.toNat < s.bitcount) (hst : modifyBit codec a s = .next t) (htu : modifyBit codec a t = .next u) :
    u.words = t.words := by
  obtain ⟨v, v', v'', _, hv', hv'', ht, hu⟩ := modifyBit_modifyBit hin hst htu
  obtain rfl : v' = v'' := Option.some.inj ((hcodec hv').symm.trans hv'')
  rw [hu, ht]

/-- `SET i` then `CLR i` is `CLR i`, as clearing does not see an earlier set (R51 (e)). -/
theorem State.Inv.set_clr_words (h : s.Inv) (hin : a.toNat < s.bitcount) (hst : modifyBit wcSet a s = .next t)
    (htu : modifyBit wcClear a t = .next u) :
    ∃ w, modifyBit wcClear a s = .next w ∧ u.words = w.words := by
  obtain ⟨v, v', v'', hv, hv', hv'', _, hu⟩ := modifyBit_modifyBit hin hst htu
  obtain ⟨w, hw⟩ := h.modifyBit_completes a fun hd _ => wcClear_completes hd
  obtain ⟨x, x', hx, hx', _, rfl⟩ := modifyBit_next_of_lt hin hw
  obtain rfl : v = x := Option.some.inj (hv.symm.trans hx)
  obtain rfl : v'' = x' := Option.some.inj (hv''.symm.trans (wcClear_of_wcSet hv' hx'))
  exact ⟨_, hw, hu⟩

/-- Settles O29: the laws R51 (d), (d) and (e), carried to the store. -/
theorem setAndClrAreIdempotent : Obligations.SetAndClrAreIdempotent :=
  fun _ _ _ _ h hin =>
    ⟨modifyBit_words_idem wcSet_of_wcSet hin, modifyBit_words_idem wcClear_of_wcClear hin, h.set_clr_words hin⟩

/-! ### The frame of the storing commands -/

/-- From `s` to `t` at most word `k` of the store changes, and of the other fields only the record of deliveries (R60). -/
def TouchesAtMost (k : Nat) (s t : State) : Prop :=
  t.bpi = s.bpi ∧ t.bitcount = s.bitcount ∧ t.port = s.port ∧ t.words.length = s.words.length ∧
    ∀ j : Nat, j ≠ k → t.wordAt j = s.wordAt j

theorem touchesAtMost_deliver (k : Nat) (r : Response) : TouchesAtMost k s (s.deliver r) :=
  ⟨rfl, rfl, rfl, rfl, fun _ _ => rfl⟩

theorem touchesAtMost_setWord (k v : Nat) (r : Response) : TouchesAtMost k s ((s.setWord k v).deliver r) :=
  ⟨rfl, rfl, rfl, List.length_set, fun j hj => by rw [deliver_wordAt, setWord_wordAt, if_neg hj.symm]⟩

theorem modifyBit_touchesAtMost (h : modifyBit codec a s = .next t) :
    TouchesAtMost (s.bitAddress a.toNat).wordIndex s t := by
  rcases modifyBit_next.1 h with ⟨_, rfl⟩ | ⟨_, v, v', _, _, _, _, rfl⟩
  · exact touchesAtMost_deliver _ _
  · exact touchesAtMost_setWord _ _ _

theorem execWrw_touchesAtMost {d : Word} (h : execWrw a d s = .next t) : TouchesAtMost a.toNat s t := by
  rcases execWrw_next.1 h with ⟨_, rfl⟩ | ⟨_, ⟨_, rfl⟩ | ⟨_, rfl⟩⟩
  · exact touchesAtMost_deliver _ _
  · exact touchesAtMost_deliver _ _
  · exact touchesAtMost_setWord _ _ _

/-- Settles O30: each storing command answers an error or writes the one word. -/
theorem storingCommandsTouchOneWord : Obligations.StoringCommandsTouchOneWord :=
  fun _ _ _ _ => ⟨fun h => h.elim modifyBit_touchesAtMost modifyBit_touchesAtMost, execWrw_touchesAtMost⟩

end Sys2Proof.Machine

/-! ## BitEngine: the width of the store, and the commands on words (43_bitengine_width_word.md)

`RDW` and `WRW` by their checks (R66, R67); `CHW` by the bit stream of the store (R65). A repack keeps the stream of the words
taken at the nominal width (R58), so it is enough to say where in that stream each bit address lies: word `k` occupies the field
of `k`, and its bits the low `iw(k)` bits of that field. -/

namespace Sys2Proof.Machine

variable {s t : State} {a : Word} {w : Width} {ws : List Nat}

/-! ### RDW and WRW -/

/-- Settles O36: the word fits its item width, so the result word holds it. -/
theorem rdwReturnsTheWord : Obligations.RdwReturnsTheWord := by
  intro a s h hin
  obtain ⟨v, hv, hfits⟩ := h.wordAt hin
  have hresult : v < 2 ^ 64 := hfits.trans_le (Nat.pow_le_pow_right Nat.two_pos (h.iw_bounds hin).2)
  exact ⟨v, hv, hfits, s.resultWord v, resultWord_toNat hresult, execRdw_next.2 (.inr ⟨hin, v, hv, rfl⟩)⟩

/-- Settles O37: the three clauses are the three outcomes of `execWrw_next`. -/
theorem wrwChecksThenWritesTheWord : Obligations.WrwChecksThenWritesTheWord := by
  intro a d s
  refine ⟨fun hout => ?_, fun hin hbig => ?_, fun hin hfits => ?_⟩
  · exact execWrw_next.2 (.inl ⟨hout, rfl⟩)
  · exact execWrw_next.2 (.inr ⟨hin, .inl ⟨hbig, rfl⟩⟩)
  · exact execWrw_next.2 (.inr ⟨hin, .inr ⟨hfits, rfl⟩⟩)

/-! ### CHW and its closed form -/

/-- Settles O33: two different widths compare one way or the other, and each way the resize is its closed form. -/
theorem chwRepacksTheStore : Obligations.ChwRepacksTheStore := by
  intro a w s h ha
  refine ⟨fun hsame => execChw_next.2 (.inr (.inl ⟨hsame ▸ ha, rfl⟩)), fun hne => ⟨_, rfl, ?_⟩⟩
  refine execChw_next.2 (.inr (.inr ⟨w, _, ha, hne, ?_, rfl⟩))
  have hdom := resizerDomain_iff.1 (wf_resizerDomain h.store)
  have hbits : w.bits ≠ s.bpi.bits := fun heq => hne (Width.bits_inj heq)
  split
  · rename_i hwider
    exact resize_of_lt hwider hdom
  · rename_i hnot
    exact resize_of_gt (by omega) hdom

/-! ### The item width by the bit count -/

/-- A word holds the bits of the bit space that fall into its field of the nominal width (R15). -/
theorem State.Inv.iw_eq_min (h : s.Inv) {k : Nat} (hk : k * s.bpi.bits < s.bitcount) :
    s.iw k = min s.bpi.bits (s.bitcount - k * s.bpi.bits) := by
  have hword (m : Nat) : s.words.length ≤ m ↔ s.bitcount ≤ m * s.bpi.bits := by
    rw [h.length_eq, divCeil_le_iff s.bpi.bits_pos]
  have hat := hword k
  have hnext := hword (k + 1)
  rw [Nat.succ_mul] at hnext
  unfold State.iw itemWidth
  split
  · omega
  · rw [show s.words.length - 1 = k by omega]
    omega

/-- A word whose whole field lies in the bit space is full. -/
theorem State.Inv.iw_of_full (h : s.Inv) {k : Nat} (hk : (k + 1) * s.bpi.bits ≤ s.bitcount) : s.iw k = s.bpi.bits := by
  have hpos := s.bpi.bits_pos
  rw [Nat.succ_mul] at hk
  rw [h.iw_eq_min (by omega)]
  omega

/-- A last word that is short holds what is left of the bit count. -/
theorem State.Inv.iw_of_short (h : s.Inv) (hshort : s.bitcount % s.bpi.bits ≠ 0) :
    s.iw (s.bitcount / s.bpi.bits) = s.bitcount % s.bpi.bits := by
  have hlt := Nat.mod_lt s.bitcount s.bpi.bits_pos
  have hsplit := Nat.div_add_mod' s.bitcount s.bpi.bits
  rw [h.iw_eq_min (by omega)]
  omega

/-! ### The bit addresses in the stream of the store -/

/-- Bit `p` of the field of word `k` (R58). -/
theorem stream_getElem? {width p : Nat} (hp : p < width) (k : Nat) (ws : List Nat) :
    (stream width ws)[k * width + p]? = ws[k]?.map fun v => v.testBit (width - 1 - p) := by
  induction ws generalizing k with
  | nil => simp
  | cons v ws ih =>
    rw [stream_cons]
    cases k with
    | zero =>
      rw [List.getElem?_append_left (by simpa using hp)]
      simp [wordBits, hp]
    | succ k =>
      rw [Nat.succ_mul, List.getElem?_append_right (by simp; omega), wordBits_length,
        show k * width + width + p - width = k * width + p by omega, ih, List.getElem?_cons_succ]

/-- The bits of a word are the low `iw(k)` bits of its field (R22). -/
theorem State.Inv.bitAt_eq_stream (h : s.Inv) {j : Nat} (hj : j < s.bitcount) :
    s.bitAt j = (stream s.bpi.bits s.words)[j + (s.bpi.bits - s.iw (j / s.bpi.bits))]? := by
  obtain ⟨hk, hposition⟩ := h.address hj
  have hwidth : s.iw (j / s.bpi.bits) ≤ s.bpi.bits := (itemWidth_bounds h.length_eq hk).2
  have hsplit := Nat.div_add_mod' j s.bpi.bits
  have hfield : j + (s.bpi.bits - s.iw (j / s.bpi.bits)) =
      j / s.bpi.bits * s.bpi.bits + (j % s.bpi.bits + (s.bpi.bits - s.iw (j / s.bpi.bits))) := by omega
  have hvalue : s.bpi.bits - 1 - (j % s.bpi.bits + (s.bpi.bits - s.iw (j / s.bpi.bits))) =
      s.iw (j / s.bpi.bits) - 1 - j % s.bpi.bits := by omega
  rw [hfield, stream_getElem? (by omega), hvalue, bitAt_of_lt hj, State.wordAt]

/-- The rest of the field of a word is 0, as the word fits its item width (R14). -/
theorem State.Inv.stream_above_word (h : s.Inv) {k p : Nat} (hk : k < s.words.length) (hp : p < s.bpi.bits - s.iw k) :
    (stream s.bpi.bits s.words)[k * s.bpi.bits + p]? = some false := by
  obtain ⟨v, hv, hfits⟩ := h.wordAt hk
  have hzero : v.testBit (s.bpi.bits - 1 - p) = false :=
    Nat.testBit_lt_two_pow (hfits.trans_le (Nat.pow_le_pow_right Nat.two_pos (by omega)))
  rw [stream_getElem? (by omega), ← State.wordAt, hv, Option.map_some, hzero]

/-- A bit of a full word lies in the stream at its own address. -/
theorem State.Inv.bitAt_eq_stream_of_full (h : s.Inv) {j : Nat} (hj : (j / s.bpi.bits + 1) * s.bpi.bits ≤ s.bitcount) :
    s.bitAt j = (stream s.bpi.bits s.words)[j]? := by
  have hlt : j < s.bitcount := (Nat.lt_mul_of_div_lt (Nat.lt_succ_self _) s.bpi.bits_pos).trans_le hj
  rw [h.bitAt_eq_stream hlt, h.iw_of_full hj, Nat.sub_self, Nat.add_zero]

/-- The bit space of a store without a short word is its stream. -/
theorem State.Inv.bitAt_of_full_store (h : s.Inv) (hfull : s.bitcount = s.words.length * s.bpi.bits) (j : Nat) :
    s.bitAt j = (stream s.bpi.bits s.words)[j]? := by
  rcases lt_or_ge j s.bitcount with hj | hj
  · refine h.bitAt_eq_stream_of_full ?_
    rw [hfull]
    exact Nat.mul_le_mul_right _ (h.address hj).1
  · rw [bitAt_of_ge hj, List.getElem?_eq_none (by rwa [stream_length, ← hfull])]

/-! ### CHW in the bit space -/

/-- A bit count that is a multiple of the width leaves no short word (R13). -/
theorem State.Inv.bitcount_eq_mul (h : s.Inv) (hfull : s.bitcount % s.bpi.bits = 0) :
    s.bitcount = s.words.length * s.bpi.bits := by
  obtain ⟨m, hm⟩ := Nat.dvd_of_mod_eq_zero hfull
  rw [h.length_eq, hm, Nat.mul_comm, divCeil_mul_self m s.bpi.bits_pos]

/-- The bit space of a repacked store is the stream of the old one, then the padding (R58, R65). -/
theorem State.Inv.withStore_bitAt (h : s.Inv) (hws : resize s.words s.bpi w = some ws) (j : Nat) :
    (s.withStore ws w).bitAt j =
      (stream s.bpi.bits s.words ++
        List.replicate (padding w.bits (s.words.length * s.bpi.bits)) false)[j]? := by
  rw [(h.withStore hws).bitAt_of_full_store rfl, withStore_bpi, withStore_words, stream_resize hws]

/-- A repacked store keeps the fields of the old words where they were. -/
theorem State.Inv.withStore_bitAt_of_lt (h : s.Inv) (hws : resize s.words s.bpi w = some ws) {j : Nat}
    (hj : j < s.words.length * s.bpi.bits) :
    (s.withStore ws w).bitAt j = (stream s.bpi.bits s.words)[j]? := by
  rw [h.withStore_bitAt hws, List.getElem?_append_left (by rwa [stream_length])]

/-- The bits a repack adds past the fields of the old words are 0 (R65 (b)). -/
theorem State.Inv.withStore_bitAt_of_ge (h : s.Inv) (hws : resize s.words s.bpi w = some ws) {j : Nat}
    (hj : s.words.length * s.bpi.bits ≤ j) (hnew : j < ws.length * w.bits) :
    (s.withStore ws w).bitAt j = some false := by
  rw [resize_length_eq_add_padding hws] at hnew
  rw [h.withStore_bitAt hws, List.getElem?_append_right (by rwa [stream_length]), stream_length,
    List.getElem?_replicate_of_lt (by omega)]

/-- What `CHW` of another legal width can do. -/
theorem execChw_next_of_ne (ha : a.toNat = w.bits) (hne : w ≠ s.bpi) (hexec : execChw a s = .next t) :
    ∃ ws, resize s.words s.bpi w = some ws ∧ t = (s.withStore ws w).deliver (okResponse 0) := by
  rcases execChw_next.1 hexec with ⟨hbad, _⟩ | ⟨hsame, _⟩ | ⟨w', ws, ha', _, hws, ht⟩
  · exact absurd ha (hbad w)
  · exact absurd (Width.bits_inj (ha.symm.trans hsame)) hne
  · obtain rfl : w' = w := Width.bits_inj (ha'.symm.trans ha)
    exact ⟨ws, hws, ht⟩

/-- On a store without a short word the no-op is a repack too, at the width it has. -/
theorem State.Inv.execChw_next_of_full_store (h : s.Inv) (hfull : s.bitcount = s.words.length * s.bpi.bits)
    (ha : a.toNat = w.bits) (hexec : execChw a s = .next t) :
    ∃ ws, resize s.words s.bpi w = some ws ∧ t = (s.withStore ws w).deliver (okResponse 0) := by
  by_cases hsame : w = s.bpi
  · subst hsame
    have hnoop : execChw a s = .next (s.deliver (okResponse 0)) := execChw_next.2 (.inr (.inl ⟨ha, rfl⟩))
    obtain rfl : s.deliver (okResponse 0) = t := Host.Outcome.next.inj (hnoop.symm.trans hexec)
    refine ⟨s.words, resize_self (resizerDomain_iff.1 (wf_resizerDomain h.store)), ?_⟩
    rw [State.withStore, ← hfull]
  · exact execChw_next_of_ne ha hsame hexec

/-- Settles O34: with no short word both bit spaces are streams, and the new one continues the old by the padding. -/
theorem chwKeepsTheBitsOfAFullStore : Obligations.ChwKeepsTheBitsOfAFullStore := by
  intro a w s t h hmultiple ha hexec
  have hfull := h.bitcount_eq_mul hmultiple
  obtain ⟨ws, hws, rfl⟩ := h.execChw_next_of_full_store hfull ha hexec
  refine ⟨?_, fun j hj => ?_, fun j hj hnew => ?_⟩
  · rw [hfull]
    exact resize_length hws
  · rw [deliver_bitAt, h.withStore_bitAt_of_lt hws (hfull ▸ hj), h.bitAt_of_full_store hfull]
  · exact h.withStore_bitAt_of_ge hws (hfull ▸ hj) hnew

/-- The words of a store with a short last word: the full ones, then that one (R13). -/
theorem State.Inv.length_of_short (h : s.Inv) (hshort : s.bitcount % s.bpi.bits ≠ 0) :
    s.words.length = s.bitcount / s.bpi.bits + 1 := by
  rw [h.length_eq]
  refine eq_of_forall_ge_iff fun m => ?_
  rw [divCeil_le_iff s.bpi.bits_pos, Nat.succ_le_iff, Nat.div_lt_iff_lt_mul s.bpi.bits_pos]
  have hne : s.bitcount ≠ m * s.bpi.bits := fun heq => hshort (heq ▸ Nat.mul_mod_left m _)
  omega

/-- Settles O35: the repack keeps every field where it is. A full word's bits fill its field; the short word's bits are at the
low end of its field, `d` addresses further, under a gap of zeros. -/
theorem chwMovesTheBitsOfAShortLastWord : Obligations.ChwMovesTheBitsOfAShortLastWord := by
  intro a w s t h hshort ha hne hexec
  obtain ⟨ws, hws, rfl⟩ := execChw_next_of_ne ha hne hexec
  have hlen := h.length_of_short hshort
  have hlast := h.iw_of_short hshort
  have hsplit := Nat.div_add_mod' s.bitcount s.bpi.bits
  have hfields : s.words.length * s.bpi.bits = s.bitcount / s.bpi.bits * s.bpi.bits + s.bpi.bits := by
    rw [hlen, Nat.succ_mul]
  refine ⟨fun j hj => ?_, fun j hge hlt => ?_, fun j hge hj => ?_, Nat.mul_mod_left _ _⟩
  · have hword : (j / s.bpi.bits + 1) * s.bpi.bits ≤ s.bitcount / s.bpi.bits * s.bpi.bits :=
      Nat.mul_le_mul_right _ ((Nat.div_lt_iff_lt_mul s.bpi.bits_pos).2 hj)
    rw [deliver_bitAt, h.withStore_bitAt_of_lt hws (by omega), h.bitAt_eq_stream_of_full (by omega)]
  · obtain ⟨p, rfl⟩ := Nat.exists_eq_add_of_le hge
    rw [deliver_bitAt, h.withStore_bitAt_of_lt hws (by omega), h.stream_above_word (by omega) (by omega)]
  · have hlt := Nat.mod_lt s.bitcount s.bpi.bits_pos
    have hword : j / s.bpi.bits = s.bitcount / s.bpi.bits :=
      Nat.div_eq_of_lt_le hge (by rw [Nat.succ_mul]; omega)
    rw [deliver_bitAt, h.withStore_bitAt_of_lt hws (by omega), h.bitAt_eq_stream hj, hword, hlast]

end Sys2Proof.Machine

/-! ## BitEngine: the exports (44_bitengine_export_status.md)

`TOBIN` (R68) and `STRB` (R69). Each payload is made of one block of bytes per word, all blocks of one length, so a byte is read
by the word of its block and its place in the block. -/

namespace Sys2Proof.Machine

variable {α β : Type} {n j k v bits : Nat}

/-! ### Lists in blocks of one length -/

theorem flatMap_length_of_block {f : α → List β} (hf : ∀ a, (f a).length = n) (l : List α) :
    (l.flatMap f).length = l.length * n := by
  simp [List.length_flatMap, hf, List.map_const']

theorem flatMap_getElem?_of_block {f : α → List β} (hf : ∀ a, (f a).length = n) (hj : j < n) (k : Nat) (l : List α) :
    (l.flatMap f)[k * n + j]? = l[k]?.bind fun a => (f a)[j]? := by
  induction l generalizing k with
  | nil => simp
  | cons a l ih =>
    rw [List.flatMap_cons]
    cases k with
    | zero =>
      rw [Nat.zero_mul, Nat.zero_add, List.getElem?_append_left (by rwa [hf]), List.getElem?_cons_zero, Option.bind_some]
    | succ k =>
      rw [Nat.succ_mul, List.getElem?_append_right (by rw [hf]; omega), hf,
        show k * n + n + j - n = k * n + j by omega, ih, List.getElem?_cons_succ]

/-! ### TOBIN -/

@[simp] theorem binaryGroup_length (bits v : Nat) : (binaryGroup bits v).length = bits := by simp [binaryGroup]

/-- A digit of a group is the bit of its place, most significant first (R68). -/
theorem binaryGroup_getElem? (hj : j < bits) (v : Nat) :
    (binaryGroup bits v)[j]? = some (if v.testBit (bits - 1 - j) then (0x31 : Byte) else 0x30) := by
  rw [binaryGroup, List.getElem?_map, List.getElem?_range hj, Option.map_some, Nat.shiftRight_eq_div_pow,
    ← Nat.toNat_testBit]
  cases v.testBit (bits - 1 - j) <;> rfl

/-- The group of a word and a separator: the block `TOBIN` writes for every word but the last. -/
def terminatedGroup (bits v : Nat) : List Byte := binaryGroup bits v ++ [Config.separator]

@[simp] theorem terminatedGroup_length (bits v : Nat) : (terminatedGroup bits v).length = bits + 1 := by
  simp [terminatedGroup]

/-- With a separator put after the last group too, the payload is in blocks of one length (R68). -/
theorem binaryText_append_separator {ws : List Nat} (hne : ws ≠ []) :
    binaryText bits ws ++ [Config.separator] = ws.flatMap (terminatedGroup bits) := by
  induction ws with
  | nil => exact absurd rfl hne
  | cons v ws ih =>
    cases ws with
    | nil => rw [binaryText, List.map_singleton, List.intercalate_singleton, List.flatMap_singleton, terminatedGroup]
    | cons w ws =>
      rw [List.flatMap_cons, ← ih (List.cons_ne_nil w ws), terminatedGroup, ← List.append_assoc, binaryText, List.map_cons,
        List.map_cons, List.intercalate_cons_cons, binaryText, List.map_cons]

theorem binaryText_length (bits : Nat) (ws : List Nat) :
    (binaryText bits ws).length = ws.length * bits + (ws.length - 1) := by
  rcases eq_or_ne ws [] with rfl | hne
  · simp [binaryText_nil]
  · have hlen := congrArg List.length (binaryText_append_separator (bits := bits) hne)
    rw [flatMap_length_of_block (terminatedGroup_length bits), List.length_append, List.length_singleton,
      Nat.mul_succ] at hlen
    have := List.length_pos_iff.2 hne
    omega

/-- A byte of the payload, by the word of its block (R68). -/
theorem binaryText_getElem? {ws : List Nat} (hv : ws[k]? = some v) (hj : j < bits + 1)
    (hin : k * (bits + 1) + j < (binaryText bits ws).length) :
    (binaryText bits ws)[k * (bits + 1) + j]? = (terminatedGroup bits v)[j]? := by
  have hne : ws ≠ [] := by rintro rfl; simp at hv
  rw [← List.getElem?_append_left hin (l₂ := [Config.separator]), binaryText_append_separator hne,
    flatMap_getElem?_of_block (terminatedGroup_length bits) hj, hv, Option.bind_some]

theorem binaryText_digit {ws : List Nat} (hv : ws[k]? = some v) (hj : j < bits) :
    (binaryText bits ws)[k * (bits + 1) + j]? =
      some (if v.testBit (bits - 1 - j) then (0x31 : Byte) else 0x30) := by
  obtain ⟨hk, _⟩ := List.getElem?_eq_some_iff.1 hv
  have hblock : (k + 1) * bits ≤ ws.length * bits := Nat.mul_le_mul_right bits hk
  rw [Nat.succ_mul] at hblock
  rw [binaryText_getElem? hv (by omega) (by rw [binaryText_length, Nat.mul_succ]; omega), terminatedGroup,
    List.getElem?_append_left (by simpa using hj), binaryGroup_getElem? hj]

theorem binaryText_separator {ws : List Nat} (hk : k + 1 < ws.length) :
    (binaryText bits ws)[k * (bits + 1) + bits]? = some (0x20 : Byte) := by
  have hblock : (k + 1) * bits ≤ ws.length * bits := Nat.mul_le_mul_right bits hk.le
  rw [Nat.succ_mul] at hblock
  have hv := List.getElem?_eq_getElem (show k < ws.length by omega)
  rw [binaryText_getElem? hv (by omega) (by rw [binaryText_length, Nat.mul_succ]; omega), terminatedGroup]
  simp [Config.separator]

/-- Settles O39: the length, the digits and the separators of the payload, one lemma each. -/
theorem tobinDeliversTheBinaryGroups : Obligations.TobinDeliversTheBinaryGroups := fun s =>
  ⟨_, _, exec_tobin s, resultWord_toNat, binaryText_length _ _, fun _ _ _ => binaryText_digit,
    fun _ => binaryText_separator⟩

/-! ### STRB -/

theorem eight_dvd_bits (w : Width) : 8 ∣ w.bits := by cases w <;> decide

/-- Resizing to bytes splits every word, a word of one byte into itself (R69). -/
theorem resize_w8 {ws out : List Nat} {w : Width} (h : resize ws w .w8 = some out) : out = narrow w.bits 8 ws := by
  have hstream : stream 8 out = stream w.bits ws ++ List.replicate (padding 8 (ws.length * w.bits)) false :=
    stream_resize h
  rw [padding_of_dvd (by decide) ((eight_dvd_bits w).mul_left _), List.replicate_zero, List.append_nil,
    ← stream_narrow (by decide) (eight_dvd_bits w)] at hstream
  exact stream_inj (by decide) (resize_lt h) (fun _ => narrow_lt) hstream

theorem bytesOf_narrow_length (w : Width) (ws : List Nat) :
    (bytesOf (narrow w.bits 8 ws)).length = ws.length * w.bits / 8 := by
  rw [bytesOf, List.length_map, narrow_length, Nat.mul_div_assoc _ (eight_dvd_bits w)]

/-- Byte `c` of word `k`, the most significant first (R69). -/
theorem bytesOf_narrow_getElem? {ws : List Nat} {c : Nat} (hv : ws[k]? = some v) (hc : c < bits / 8) :
    (bytesOf (narrow bits 8 ws))[k * (bits / 8) + c]? = some (BitVec.ofNat 8 (chunk bits 8 v c)) := by
  rw [bytesOf, List.getElem?_map, narrow, flatMap_getElem?_of_block (by simp) hc, hv, Option.bind_some,
    List.getElem?_map, List.getElem?_range hc, Option.map_some, Option.map_some]

/-- A byte holds its chunk unchanged, the field of 8 bits of that number (R56). -/
theorem chunk_byte_toNat (bits v c : Nat) :
    (BitVec.ofNat 8 (chunk bits 8 v c)).toNat = v / 2 ^ (bits - 8 * (c + 1)) % 256 := by
  rw [BitVec.toNat_ofNat, Nat.mod_eq_of_lt (chunk_lt _ _ _ _), chunk, ones, Nat.and_two_pow_sub_one_eq_mod,
    Nat.shiftRight_eq_div_pow]

/-- Settles O40: the store of a legal state narrows to its bytes, no more of them than the capacity has bits. -/
theorem strbDeliversTheBytes : Obligations.StrbDeliversTheBytes := by
  intro s h
  obtain ⟨ws, hws⟩ := h.resize_completes .w8
  obtain rfl := resize_w8 hws
  have hlen := bytesOf_narrow_length s.bpi s.words
  have hcap := (Nat.div_le_self (s.words.length * s.bpi.bits) 8).trans h.capacity
  exact ⟨_, _, execStrb_next.2 ⟨_, hws, rfl⟩, resultWord_toNat_of_le_capBits (hlen.trans_le hcap), hlen,
    fun k v c hv hc => ⟨_, bytesOf_narrow_getElem? hv hc, chunk_byte_toNat _ _ _⟩⟩

end Sys2Proof.Machine

/-! ## Exceptions (60_exceptions.md)

What an error leaves as it was (R81), that it comes again (R82), the status codes of the commands (R74), and exactly when an
index is out of range and a width invalid (R75, R76). -/

namespace Sys2Proof.Machine

variable {s t u : State} {i : Instr} {a d : Word}

/-! ### The last delivery -/

/-- The response delivered last is read off the record, whatever was delivered before. -/
theorem eq_of_deliver_responses {r r' : Response} {rs : List Response} (h : (u.deliver r').responses = rs ++ [r]) :
    r' = r :=
  List.singleton_inj.1 (List.append_inj_right' h rfl)

theorem response_eq_of_deliver_eq {r r' : Response} (h : s.deliver r = u.deliver r') : r = r' :=
  eq_of_deliver_responses (congrArg State.responses h)

/-- An error does not end as a success does (R81). -/
theorem deliver_error_ne_deliver_ok {code : Byte} {r : Word} (hcode : code ≠ 0x00) :
    s.deliver (errorResponse code) ≠ u.deliver (okResponse r) :=
  fun h => hcode (congrArg Response.st (response_eq_of_deliver_eq h))

/-- Errors with different codes do not end alike. -/
theorem deliver_error_ne_deliver_error {code code' : Byte} (hcode : code ≠ code') :
    s.deliver (errorResponse code) ≠ u.deliver (errorResponse code') :=
  fun h => hcode (congrArg Response.st (response_eq_of_deliver_eq h))

/-! ### What an error leaves as it was -/

theorem Response.WellFormed.eq_errorResponse {r : Response} (hform : r.WellFormed i s) (hst : r.st ≠ 0x00) :
    r = errorResponse r.st := by
  obtain ⟨hr, hp⟩ := hform.error hst
  rw [errorResponse, ← hr, ← hp]

/-- A command that ends with an error only delivers it: whatever writes the engine state ends with success (R81). -/
theorem exec_error {r : Response} (h : exec i s = .next t) (hres : t.responses = s.responses ++ [r])
    (hst : r.st ≠ 0x00) : t = s.deliver r := by
  obtain ⟨u, r', rfl, hu⟩ := exec_next h
  obtain rfl := eq_of_deliver_responses hres
  rcases hu with rfl | ⟨rfl, _⟩
  · rfl
  · exact absurd rfl hst

/-- The response of an error is its status code and nothing more (R81). -/
theorem exec_error_response {r : Response} (h : exec i s = .next t) (hres : t.responses = s.responses ++ [r])
    (hst : r.st ≠ 0x00) : r = errorResponse r.st := by
  obtain ⟨r', hres', hform, _⟩ := exec_deliversOne h
  obtain rfl : r = r' := by simpa using hres.symm.trans hres'
  exact hform.eq_errorResponse hst

/-- Settles O18: a word that decodes runs its command from the popped port, where an error only delivers; an undefined opcode
delivers IllegalCommand there. -/
theorem errorsChangeNothing : Obligations.ErrorsChangeNothing := by
  intro s t cw rest r hp hstep hres hst
  rw [← popPort_of_port hp]
  cases hd : decode cw with
  | ok i =>
    rw [step_of_decode hp hd] at hstep
    rw [← exec_error_response hstep hres hst]
    exact exec_error hstep hres hst
  | error e =>
    rw [step_of_decode_error hp hd] at hstep
    cases hstep
    obtain rfl := eq_of_deliver_responses hres
    rfl

/-- Settles O19: an error only delivers, and what only delivers repeats. -/
theorem failedCommandFailsAgain : Obligations.FailedCommandFailsAgain := by
  intro i s t r h hres hst
  obtain rfl := exec_error h hres hst
  exact exec_repeat_of_deliver h

/-! ### The status codes of each command -/

/-- Settles O20: `Instr.statusCodes` is the table of R74. -/
theorem statusCodesOfEachCommand : Obligations.StatusCodesOfEachCommand := by
  intro i s t r h hres
  obtain ⟨r', hres', hmem⟩ := exec_status h
  obtain rfl : r = r' := by simpa using hres.symm.trans hres'
  cases i <;> exact hmem

/-! ### IndexOutOfRange -/

/-- `GET` raises IndexOutOfRange exactly outside the bit space (R62, R75). -/
theorem execGet_indexOutOfRange_iff :
    execGet a s = .next (s.deliver (errorResponse 0x01)) ↔ s.bitcount ≤ a.toNat := by
  refine execGet_next.trans ⟨?_, fun hout => .inl ⟨hout, rfl⟩⟩
  rintro (⟨hout, _⟩ | ⟨_, v, b, _, _, hok⟩)
  · exact hout
  · exact absurd hok (deliver_error_ne_deliver_ok (by decide))

/-- So do `SET` and `CLR` (R63, R64, R75). -/
theorem modifyBit_indexOutOfRange_iff {codec : Nat → Nat → Nat → Option Nat} :
    modifyBit codec a s = .next (s.deliver (errorResponse 0x01)) ↔ s.bitcount ≤ a.toNat := by
  refine modifyBit_next.trans ⟨?_, fun hout => .inl ⟨hout, rfl⟩⟩
  rintro (⟨hout, _⟩ | ⟨_, v, v', _, _, _, _, hok⟩)
  · exact hout
  · exact absurd hok (deliver_error_ne_deliver_ok (by decide))

/-- `RDW` raises IndexOutOfRange exactly outside the word space (R66, R75). -/
theorem execRdw_indexOutOfRange_iff :
    execRdw a s = .next (s.deliver (errorResponse 0x01)) ↔ s.words.length ≤ a.toNat := by
  refine execRdw_next.trans ⟨?_, fun hout => .inl ⟨hout, rfl⟩⟩
  rintro (⟨hout, _⟩ | ⟨_, v, _, hok⟩)
  · exact hout
  · exact absurd hok (deliver_error_ne_deliver_ok (by decide))

/-- So does `WRW`, whose only other error is InvalidValue (R67, R75). -/
theorem execWrw_indexOutOfRange_iff :
    execWrw a d s = .next (s.deliver (errorResponse 0x01)) ↔ s.words.length ≤ a.toNat := by
  refine execWrw_next.trans ⟨?_, fun hout => .inl ⟨hout, rfl⟩⟩
  rintro (⟨hout, _⟩ | ⟨_, ⟨_, hvalue⟩ | ⟨_, hok⟩⟩)
  · exact hout
  · exact absurd hvalue (deliver_error_ne_deliver_error (by decide))
  · exact absurd hok (deliver_error_ne_deliver_ok (by decide))

/-- The index of all ones lies outside every space within the capacity (R4, R27). -/
theorem le_allOnes_of_le_capBits {n : Nat} (h : n ≤ Config.capBits) : n ≤ (BitVec.allOnes 64).toNat := by
  have hcap := Config.capBits_le
  rw [BitVec.toNat_allOnes]
  omega

/-- Settles O31: the equivalences hold in every state; a legal one is needed for the index of all ones. -/
theorem indexOutOfRangeExactlyOutsideTheSpaces : Obligations.IndexOutOfRangeExactlyOutsideTheSpaces := by
  intro a d s hs
  refine ⟨fun i hi => ?_, fun i hi => ?_,
    le_allOnes_of_le_capBits hs.bitcount_le, le_allOnes_of_le_capBits hs.length_le⟩
  · simp only [List.mem_cons, List.not_mem_nil, or_false] at hi
    rcases hi with rfl | rfl | rfl
    · exact execGet_indexOutOfRange_iff
    · exact modifyBit_indexOutOfRange_iff
    · exact modifyBit_indexOutOfRange_iff
  · rcases List.mem_pair.1 hi with rfl | rfl
    · exact execRdw_indexOutOfRange_iff
    · exact execWrw_indexOutOfRange_iff

/-! ### InvalidWidth -/

/-- `CHW` raises InvalidWidth exactly for an operand that is no width: its other cases are successes (R65, R76). -/
theorem execChw_invalidWidth_iff :
    execChw a s = .next (s.deliver (errorResponse 0x02)) ↔ ∀ w : Width, a.toNat ≠ w.bits := by
  refine execChw_next.trans ⟨?_, fun hbad => .inl ⟨hbad, rfl⟩⟩
  rintro (⟨hbad, _⟩ | ⟨_, hok⟩ | ⟨w, ws, _, _, _, hok⟩)
  · exact hbad
  · exact absurd hok (deliver_error_ne_deliver_ok (by decide))
  · exact absurd hok (deliver_error_ne_deliver_ok (by decide))

/-- So does `INIT` at any capacity, whose only other error is CapacityExceeded (R61, R76). -/
theorem construct_invalidWidth_iff {cap : Nat} :
    construct cap a d s = .next (s.deliver (errorResponse 0x02)) ↔ ∀ w : Width, d.toNat ≠ w.bits := by
  refine construct_next.trans ⟨?_, fun hbad => .inl ⟨hbad, rfl⟩⟩
  rintro (⟨hbad, _⟩ | ⟨w, _, ⟨_, hcapacity⟩ | ⟨_, hok⟩⟩)
  · exact hbad
  · exact absurd hcapacity (deliver_error_ne_deliver_error (by decide))
  · exact absurd hok (deliver_error_ne_deliver_ok (by decide))

/-- Settles O32: the two width checks, each of which comes before every other case of its command. -/
theorem invalidWidthExactlyForBadWidths : Obligations.InvalidWidthExactlyForBadWidths := fun _ _ _ =>
  ⟨execChw_invalidWidth_iff, construct_invalidWidth_iff⟩

end Sys2Proof.Machine

/-! ## Reset, and the array before an `INIT` (70_reset_and_hazards.md)

What reset leaves (R86), and what each command answers while the array is empty, as it is from reset until the host constructs
one (R87). -/

namespace Sys2Proof.Machine

variable {s : State} {a d : Word} {w : Width}

/-! ### Reset -/

/-- The converse of `step_next` for reset in front at the port (R86). -/
theorem step_of_reset {rest : List PortEvent} (hp : s.port = .reset :: rest) : step s = .next s.popPort.takeReset := by
  simp only [step, hp]

/-- Settles O8: the engine takes the event, which leaves `rest`, and then the reset values. -/
theorem stepTakesResetBetweenCommands : Obligations.StepTakesResetBetweenCommands := by
  intro s rest hp
  rw [step_of_reset hp, popPort_of_port hp]
  rfl

/-! ### The empty array

It has no bit and no word, so every index is out of range; every resize of it is empty; and every view but the width is zero. -/

/-- The empty store is in the domain of every resize, and stays empty (R53, R57). -/
theorem resize_empty (old new : Width) : resize [] old new = some [] := by
  obtain ⟨out, hout⟩ := resize_isSome (ws := []) (old := old) new rfl
  rwa [resize_nil hout] at hout

/-- Commands with an index raise IndexOutOfRange (R75, R87). -/
theorem exec_index_of_empty {i : Instr} (hwords : s.words = []) (hcount : s.bitcount = 0)
    (hi : i ∈ [Instr.get a, .set a, .clr a, .rdw a, .wrw a d]) : exec i s = .next (s.deliver (errorResponse 0x01)) := by
  have hbit : s.bitcount ≤ a.toNat := hcount ▸ Nat.zero_le _
  have hword : s.words.length ≤ a.toNat := by rw [hwords]; exact Nat.zero_le _
  simp only [List.mem_cons, List.not_mem_nil, or_false] at hi
  rcases hi with rfl | rfl | rfl | rfl | rfl
  · exact execGet_indexOutOfRange_iff.2 hbit
  · exact modifyBit_indexOutOfRange_iff.2 hbit
  · exact modifyBit_indexOutOfRange_iff.2 hbit
  · exact execRdw_indexOutOfRange_iff.2 hword
  · exact execWrw_indexOutOfRange_iff.2 hword

/-- The exports have no payload and the counts are 0 (R68 to R70, R72, R87). -/
theorem exec_read_of_empty {i : Instr} (hwords : s.words = []) (hcount : s.bitcount = 0)
    (hi : i ∈ [Instr.tobin, .strb, .rdn, .rdlen]) : exec i s = .next (s.deliver (okResponse 0)) := by
  simp only [List.mem_cons, List.not_mem_nil, or_false] at hi
  rcases hi with rfl | rfl | rfl | rfl
  · rw [exec_tobin, hwords]; rfl
  · exact execStrb_next.2 ⟨[], by rw [hwords, resize_empty], rfl⟩
  · rw [exec_rdn, hcount]; rfl
  · rw [exec_rdlen, hwords]; rfl

/-- A width change repacks nothing, so the width is all it writes, the no-op case included (R65, R87). -/
theorem execChw_of_empty (hwords : s.words = []) (hcount : s.bitcount = 0) (ha : a.toNat = w.bits) :
    execChw a s = .next (({ s with bpi := w } : State).deliver (okResponse 0)) := by
  by_cases hsame : w = s.bpi
  · subst hsame
    exact execChw_next.2 (.inr (.inl ⟨ha, rfl⟩))
  · have hstore : s.withStore [] w = { s with bpi := w } := by
      simp only [State.withStore, List.length_nil, Nat.zero_mul, hwords, hcount]
    rw [← hstore]
    exact execChw_next.2 (.inr (.inr ⟨w, [], ha, hsame, by rw [hwords, resize_empty], rfl⟩))

/-- `RDBPI` returns the width, of this array as of every other (R71). -/
theorem resultWord_bits (s : State) : (s.resultWord s.bpi.bits).toNat = s.bpi.bits :=
  resultWord_toNat_of_le_capBits (s.bpi.bits_facts.2.1.trans Config.capBits_ge)

/-- Settles O11: the commands that read or write the array see an empty one; `INIT` does not look at the array, so its cases
are those of `initConstructsAZeroStore`. -/
theorem emptyArrayAnswersEveryCommand : Obligations.EmptyArrayAnswersEveryCommand := by
  intro s a d hwords hcount
  obtain ⟨hwidth, hover, hconstruct, _⟩ := initConstructsAZeroStore
  refine ⟨fun _ => exec_index_of_empty hwords hcount, fun _ => exec_read_of_empty hwords hcount,
    ⟨_, resultWord_bits s, exec_rdbpi s⟩, execChw_invalidWidth_iff.2, fun w => execChw_of_empty hwords hcount,
    hwidth a d s, fun w hw => ?_⟩
  split
  · rename_i hcap
    exact hover a d w s hw hcap
  · rename_i hcap
    exact hconstruct a d w s hw (not_lt.1 hcap)

end Sys2Proof.Machine

/-! ## The empty port (00_scope.md)

The case of a step in which the engine takes no event: no rule of the spec states it (log entry 2). -/

namespace Sys2Proof.Machine

/-- Settles O9: the converse of `step_next` for an empty port, where the engine takes no event and waits. -/
theorem stepWaitsAtAnEmptyPort : Obligations.StepWaitsAtAnEmptyPort := by
  intro s hp
  simp only [step, hp]

end Sys2Proof.Machine
